-- ==== Sys2Proof/Word.lean ====
section
/-! DEFINITION. The widths the spec uses (00_scope.md section 6: bit 0 least significant, all quantities unsigned). -/

namespace Sys2Proof

/-- An 8-bit value: a general register, a timer, a memory byte, an immediate KK. -/
abbrev Byte := BitVec 8

/-- A 16-bit value: an opcode word, `pc`, `I`, a stack entry. -/
abbrev Word := BitVec 16

/-- The 4-bit number of a general register, a key or a stack entry (10_state.md R10). -/
abbrev Reg := BitVec 4

/-- The 4-bit immediate N (30_encoding.md R61). -/
abbrev Nibble := BitVec 4

/-- The 12-bit immediate NNN (30_encoding.md R61). -/
abbrev Addr12 := BitVec 12

/-- The general register V15 under its second name, VF (10_state.md R11). -/
def vf : Reg := 15#4

end Sys2Proof
end

