-- ==== Sys2Proof/Syntax.lean ====
section
/-! DEFINITION. The instructions: one constructor per row of spec/opcode_table.json (30_encoding.md R64, R68, R69). -/

namespace Sys2Proof

/-- The 35 instructions of 30_encoding.md R64 and the nine rows of undefined words (R68, R69), each with every bit its row
leaves open (bits a row does not decode included: N of 5XYN and 9XYN, Y of the shifts; R65, log entry 7). -/
inductive Instr where
  /-- 00E0 CLS -/
  | cls
  /-- 00EE RET -/
  | ret
  /-- 0NNN SYS NNN, every family-0 word but the two above -/
  | sys (nnn : Addr12)
  /-- 1NNN JP NNN -/
  | jp (nnn : Addr12)
  /-- 2NNN CALL NNN -/
  | call (nnn : Addr12)
  /-- 3XKK SE VX, KK -/
  | seImm (x : Reg) (kk : Byte)
  /-- 4XKK SNE VX, KK -/
  | sneImm (x : Reg) (kk : Byte)
  /-- 5XYN SE VX, VY (N present, not decoded) -/
  | seReg (x y : Reg) (n : Nibble)
  /-- 6XKK LD VX, KK -/
  | ldImm (x : Reg) (kk : Byte)
  /-- 7XKK ADD VX, KK -/
  | addImm (x : Reg) (kk : Byte)
  /-- 8XY0 LD VX, VY -/
  | ldReg (x y : Reg)
  /-- 8XY1 OR VX, VY -/
  | orReg (x y : Reg)
  /-- 8XY2 AND VX, VY -/
  | andReg (x y : Reg)
  /-- 8XY3 XOR VX, VY -/
  | xorReg (x y : Reg)
  /-- 8XY4 ADD VX, VY -/
  | addReg (x y : Reg)
  /-- 8XY5 SUB VX, VY -/
  | subReg (x y : Reg)
  /-- 8XY6 SHR VX (Y present, ignored) -/
  | shr (x y : Reg)
  /-- 8XY7 SUBN VX, VY -/
  | subnReg (x y : Reg)
  /-- 8XYE SHL VX (Y present, ignored) -/
  | shl (x y : Reg)
  /-- 9XYN SNE VX, VY (N present, not decoded) -/
  | sneReg (x y : Reg) (n : Nibble)
  /-- ANNN LD I, NNN -/
  | ldI (nnn : Addr12)
  /-- BNNN JP V0, NNN -/
  | jpV0 (nnn : Addr12)
  /-- CXKK RND VX, KK -/
  | rnd (x : Reg) (kk : Byte)
  /-- DXYN DRW VX, VY, N -/
  | drw (x y : Reg) (n : Nibble)
  /-- EX9E SKP VX -/
  | skp (x : Reg)
  /-- EXA1 SKNP VX -/
  | sknp (x : Reg)
  /-- FX07 LD VX, DT -/
  | ldVxDt (x : Reg)
  /-- FX0A LD VX, K -/
  | ldVxK (x : Reg)
  /-- FX15 LD DT, VX -/
  | ldDtVx (x : Reg)
  /-- FX18 LD ST, VX -/
  | ldStVx (x : Reg)
  /-- FX1E ADD I, VX -/
  | addI (x : Reg)
  /-- FX29 LD F, VX -/
  | ldF (x : Reg)
  /-- FX33 LD B, VX -/
  | ldB (x : Reg)
  /-- FX55 LD [I], VX -/
  | ldMemVx (x : Reg)
  /-- FX65 LD VX, [I] -/
  | ldVxMem (x : Reg)
  /-- 8XY8, undefined: a no-op -/
  | undef8XY8 (x y : Reg)
  /-- 8XY9, undefined: a no-op -/
  | undef8XY9 (x y : Reg)
  /-- 8XYA, undefined: a no-op -/
  | undef8XYA (x y : Reg)
  /-- 8XYB, undefined: a no-op -/
  | undef8XYB (x y : Reg)
  /-- 8XYC, undefined: a no-op -/
  | undef8XYC (x y : Reg)
  /-- 8XYD, undefined: a no-op -/
  | undef8XYD (x y : Reg)
  /-- 8XYF, undefined: a no-op -/
  | undef8XYF (x y : Reg)
  /-- EXKK with KK neither 9E nor A1, undefined: a no-op -/
  | undefEXKK (x : Reg) (kk : Byte)
  /-- FXKK with KK none of the nine sub-opcodes, undefined: a no-op -/
  | undefFXKK (x : Reg) (kk : Byte)
  deriving DecidableEq, Repr

end Sys2Proof
end

