-- ==== Sys2Proof/WellFormed.lean ====
section
/-! DEFINITION. Which terms of Instr stand for a word of their row: a row "X except Y" of 30_encoding.md R64 and R69 leaves out
the words another row takes. Every other field value is a word of its row (10_state.md R10: no register number is out of range). -/

namespace Sys2Proof

/-- The nine KK sub-opcodes of family F (30_encoding.md R65). -/
def subOpcodesF : List Byte := [0x07, 0x0A, 0x15, 0x18, 0x1E, 0x29, 0x33, 0x55, 0x65]

/-- The two KK sub-opcodes of family E (30_encoding.md R65). -/
def subOpcodesE : List Byte := [0x9E, 0xA1]

/-- An instruction is well formed when its fields name a word of its own row: SYS is neither 00E0 nor 00EE, and an undefined
EXKK or FXKK has none of its family's sub-opcodes (30_encoding.md R65, R69). -/
def Instr.wellFormed : Instr → Bool
  | .cls => true
  | .ret => true
  | .sys nnn => nnn != 0x0E0 && nnn != 0x0EE
  | .jp _ => true
  | .call _ => true
  | .seImm _ _ => true
  | .sneImm _ _ => true
  | .seReg _ _ _ => true
  | .ldImm _ _ => true
  | .addImm _ _ => true
  | .ldReg _ _ => true
  | .orReg _ _ => true
  | .andReg _ _ => true
  | .xorReg _ _ => true
  | .addReg _ _ => true
  | .subReg _ _ => true
  | .shr _ _ => true
  | .subnReg _ _ => true
  | .shl _ _ => true
  | .sneReg _ _ _ => true
  | .ldI _ => true
  | .jpV0 _ => true
  | .rnd _ _ => true
  | .drw _ _ _ => true
  | .skp _ => true
  | .sknp _ => true
  | .ldVxDt _ => true
  | .ldVxK _ => true
  | .ldDtVx _ => true
  | .ldStVx _ => true
  | .addI _ => true
  | .ldF _ => true
  | .ldB _ => true
  | .ldMemVx _ => true
  | .ldVxMem _ => true
  | .undef8XY8 _ _ => true
  | .undef8XY9 _ _ => true
  | .undef8XYA _ _ => true
  | .undef8XYB _ _ => true
  | .undef8XYC _ _ => true
  | .undef8XYD _ _ => true
  | .undef8XYF _ _ => true
  | .undefEXKK _ kk => !subOpcodesE.contains kk
  | .undefFXKK _ kk => !subOpcodesF.contains kk

end Sys2Proof
end

