-- ==== Sys2Proof/Decode.lean ====
section
/-! DEFINITION. The decoder of 30_encoding.md R61 to R65 and R68, total on every word and on every list of bytes, and after it
the encoder. -/

namespace Sys2Proof

/-! ## The fields of an opcode word (30_encoding.md R61) -/

/-- `F = op[15:12]`, the family. -/
def fieldF (op : Word) : Nibble := op.extractLsb' 12 4
/-- `X = op[11:8]`. -/
def fieldX (op : Word) : Reg := op.extractLsb' 8 4
/-- `Y = op[7:4]`. -/
def fieldY (op : Word) : Reg := op.extractLsb' 4 4
/-- `N = op[3:0]`. -/
def fieldN (op : Word) : Nibble := op.extractLsb' 0 4
/-- `KK = op[7:0]`. -/
def fieldKK (op : Word) : Byte := op.extractLsb' 0 8
/-- `NNN = op[11:0]`. -/
def fieldNNN (op : Word) : Addr12 := op.extractLsb' 0 12

/-! ## Decode -/

/-- Family 0 is decoded on the whole word (R65). -/
def decodeFamily0 (op : Word) : Instr :=
  if op = 0x00E0 then .cls else if op = 0x00EE then .ret else .sys (fieldNNN op)

/-- Family 8 is decoded by N; seven values are undefined (R65, R69). -/
def decodeFamily8 (op : Word) : Instr :=
  let x := fieldX op
  let y := fieldY op
  let n := fieldN op
  if n = 0x0 then .ldReg x y
  else if n = 0x1 then .orReg x y
  else if n = 0x2 then .andReg x y
  else if n = 0x3 then .xorReg x y
  else if n = 0x4 then .addReg x y
  else if n = 0x5 then .subReg x y
  else if n = 0x6 then .shr x y
  else if n = 0x7 then .subnReg x y
  else if n = 0x8 then .undef8XY8 x y
  else if n = 0x9 then .undef8XY9 x y
  else if n = 0xA then .undef8XYA x y
  else if n = 0xB then .undef8XYB x y
  else if n = 0xC then .undef8XYC x y
  else if n = 0xD then .undef8XYD x y
  else if n = 0xE then .shl x y
  else .undef8XYF x y

/-- Family E is decoded by KK; every other KK is undefined (R65, R69). -/
def decodeFamilyE (op : Word) : Instr :=
  let x := fieldX op
  let kk := fieldKK op
  if kk = 0x9E then .skp x
  else if kk = 0xA1 then .sknp x
  else .undefEXKK x kk

/-- Family F is decoded by KK; every other KK is undefined (R65, R69). -/
def decodeFamilyF (op : Word) : Instr :=
  let x := fieldX op
  let kk := fieldKK op
  if kk = 0x07 then .ldVxDt x
  else if kk = 0x0A then .ldVxK x
  else if kk = 0x15 then .ldDtVx x
  else if kk = 0x18 then .ldStVx x
  else if kk = 0x1E then .addI x
  else if kk = 0x29 then .ldF x
  else if kk = 0x33 then .ldB x
  else if kk = 0x55 then .ldMemVx x
  else if kk = 0x65 then .ldVxMem x
  else .undefFXKK x kk

/-- The instruction an opcode word is: by the top nibble, and in families 0, 8, E and F by the secondary field (R64, R65).
Every one of the 65536 words has one. -/
def decodeWord (op : Word) : Instr :=
  let f := fieldF op
  if f = 0x0 then decodeFamily0 op
  else if f = 0x1 then .jp (fieldNNN op)
  else if f = 0x2 then .call (fieldNNN op)
  else if f = 0x3 then .seImm (fieldX op) (fieldKK op)
  else if f = 0x4 then .sneImm (fieldX op) (fieldKK op)
  else if f = 0x5 then .seReg (fieldX op) (fieldY op) (fieldN op)
  else if f = 0x6 then .ldImm (fieldX op) (fieldKK op)
  else if f = 0x7 then .addImm (fieldX op) (fieldKK op)
  else if f = 0x8 then decodeFamily8 op
  else if f = 0x9 then .sneReg (fieldX op) (fieldY op) (fieldN op)
  else if f = 0xA then .ldI (fieldNNN op)
  else if f = 0xB then .jpV0 (fieldNNN op)
  else if f = 0xC then .rnd (fieldX op) (fieldKK op)
  else if f = 0xD then .drw (fieldX op) (fieldY op) (fieldN op)
  else if f = 0xE then decodeFamilyE op
  else decodeFamilyF op

/-- The two bytes of a word in memory order and back: the byte at the lower address is the high byte (20_memory.md R44). -/
def wordOfBytes (hi lo : Byte) : Word := hi ++ lo

/-- The high byte of a word, stored at the lower address (20_memory.md R44). -/
def highByte (w : Word) : Byte := w.extractLsb' 8 8

/-- The low byte of a word, stored at the higher address (20_memory.md R44). -/
def lowByte (w : Word) : Byte := w.extractLsb' 0 8

/-- Why a list of bytes is no instruction. -/
inductive DecodeError where
  /-- Fewer than the two bytes of 30_encoding.md R60 were given. Only a caller of `decode` meets it (the machine always
  fetches two bytes): safe. -/
  | truncated (given : Nat)
  deriving DecidableEq, Repr

/-- The instruction at the head of a list of bytes, and the bytes after it. -/
def decode : List Byte → Except DecodeError (Instr × List Byte)
  | [] => .error (.truncated 0)
  | [_] => .error (.truncated 1)
  | hi :: lo :: rest => .ok (decodeWord (wordOfBytes hi lo), rest)

/-! ## Encode -/

/-- The word of an instruction, from the patterns of 30_encoding.md R64. -/
def encode : Instr → Word
  | .cls => 0x00E0
  | .ret => 0x00EE
  | .sys nnn => 0x0#4 ++ nnn
  | .jp nnn => 0x1#4 ++ nnn
  | .call nnn => 0x2#4 ++ nnn
  | .seImm x kk => 0x3#4 ++ x ++ kk
  | .sneImm x kk => 0x4#4 ++ x ++ kk
  | .seReg x y n => 0x5#4 ++ x ++ y ++ n
  | .ldImm x kk => 0x6#4 ++ x ++ kk
  | .addImm x kk => 0x7#4 ++ x ++ kk
  | .ldReg x y => 0x8#4 ++ x ++ y ++ 0x0#4
  | .orReg x y => 0x8#4 ++ x ++ y ++ 0x1#4
  | .andReg x y => 0x8#4 ++ x ++ y ++ 0x2#4
  | .xorReg x y => 0x8#4 ++ x ++ y ++ 0x3#4
  | .addReg x y => 0x8#4 ++ x ++ y ++ 0x4#4
  | .subReg x y => 0x8#4 ++ x ++ y ++ 0x5#4
  | .shr x y => 0x8#4 ++ x ++ y ++ 0x6#4
  | .subnReg x y => 0x8#4 ++ x ++ y ++ 0x7#4
  | .shl x y => 0x8#4 ++ x ++ y ++ 0xE#4
  | .sneReg x y n => 0x9#4 ++ x ++ y ++ n
  | .ldI nnn => 0xA#4 ++ nnn
  | .jpV0 nnn => 0xB#4 ++ nnn
  | .rnd x kk => 0xC#4 ++ x ++ kk
  | .drw x y n => 0xD#4 ++ x ++ y ++ n
  | .skp x => 0xE#4 ++ x ++ 0x9E#8
  | .sknp x => 0xE#4 ++ x ++ 0xA1#8
  | .ldVxDt x => 0xF#4 ++ x ++ 0x07#8
  | .ldVxK x => 0xF#4 ++ x ++ 0x0A#8
  | .ldDtVx x => 0xF#4 ++ x ++ 0x15#8
  | .ldStVx x => 0xF#4 ++ x ++ 0x18#8
  | .addI x => 0xF#4 ++ x ++ 0x1E#8
  | .ldF x => 0xF#4 ++ x ++ 0x29#8
  | .ldB x => 0xF#4 ++ x ++ 0x33#8
  | .ldMemVx x => 0xF#4 ++ x ++ 0x55#8
  | .ldVxMem x => 0xF#4 ++ x ++ 0x65#8
  | .undef8XY8 x y => 0x8#4 ++ x ++ y ++ 0x8#4
  | .undef8XY9 x y => 0x8#4 ++ x ++ y ++ 0x9#4
  | .undef8XYA x y => 0x8#4 ++ x ++ y ++ 0xA#4
  | .undef8XYB x y => 0x8#4 ++ x ++ y ++ 0xB#4
  | .undef8XYC x y => 0x8#4 ++ x ++ y ++ 0xC#4
  | .undef8XYD x y => 0x8#4 ++ x ++ y ++ 0xD#4
  | .undef8XYF x y => 0x8#4 ++ x ++ y ++ 0xF#4
  | .undefEXKK x kk => 0xE#4 ++ x ++ kk
  | .undefFXKK x kk => 0xF#4 ++ x ++ kk

/-- The bytes of an instruction in memory order (20_memory.md R44). -/
def encodeBytes (i : Instr) : List Byte := [highByte (encode i), lowByte (encode i)]

/-! ## The opcode table's own columns, to hold the decoder against -/

/-- The "mask" column of an instruction's row (30_encoding.md R64; opcode_table.json). -/
def Instr.rowMask : Instr → Word
  | .cls => 0xFFFF
  | .ret => 0xFFFF
  | .sys _ => 0xF000
  | .jp _ => 0xF000
  | .call _ => 0xF000
  | .seImm _ _ => 0xF000
  | .sneImm _ _ => 0xF000
  | .seReg _ _ _ => 0xF000
  | .ldImm _ _ => 0xF000
  | .addImm _ _ => 0xF000
  | .ldReg _ _ => 0xF00F
  | .orReg _ _ => 0xF00F
  | .andReg _ _ => 0xF00F
  | .xorReg _ _ => 0xF00F
  | .addReg _ _ => 0xF00F
  | .subReg _ _ => 0xF00F
  | .shr _ _ => 0xF00F
  | .subnReg _ _ => 0xF00F
  | .shl _ _ => 0xF00F
  | .sneReg _ _ _ => 0xF000
  | .ldI _ => 0xF000
  | .jpV0 _ => 0xF000
  | .rnd _ _ => 0xF000
  | .drw _ _ _ => 0xF000
  | .skp _ => 0xF0FF
  | .sknp _ => 0xF0FF
  | .ldVxDt _ => 0xF0FF
  | .ldVxK _ => 0xF0FF
  | .ldDtVx _ => 0xF0FF
  | .ldStVx _ => 0xF0FF
  | .addI _ => 0xF0FF
  | .ldF _ => 0xF0FF
  | .ldB _ => 0xF0FF
  | .ldMemVx _ => 0xF0FF
  | .ldVxMem _ => 0xF0FF
  | .undef8XY8 _ _ => 0xF00F
  | .undef8XY9 _ _ => 0xF00F
  | .undef8XYA _ _ => 0xF00F
  | .undef8XYB _ _ => 0xF00F
  | .undef8XYC _ _ => 0xF00F
  | .undef8XYD _ _ => 0xF00F
  | .undef8XYF _ _ => 0xF00F
  | .undefEXKK _ _ => 0xF000
  | .undefFXKK _ _ => 0xF000

/-- The "match" column of an instruction's row (30_encoding.md R64; opcode_table.json). -/
def Instr.rowMatch : Instr → Word
  | .cls => 0x00E0
  | .ret => 0x00EE
  | .sys _ => 0x0000
  | .jp _ => 0x1000
  | .call _ => 0x2000
  | .seImm _ _ => 0x3000
  | .sneImm _ _ => 0x4000
  | .seReg _ _ _ => 0x5000
  | .ldImm _ _ => 0x6000
  | .addImm _ _ => 0x7000
  | .ldReg _ _ => 0x8000
  | .orReg _ _ => 0x8001
  | .andReg _ _ => 0x8002
  | .xorReg _ _ => 0x8003
  | .addReg _ _ => 0x8004
  | .subReg _ _ => 0x8005
  | .shr _ _ => 0x8006
  | .subnReg _ _ => 0x8007
  | .shl _ _ => 0x800E
  | .sneReg _ _ _ => 0x9000
  | .ldI _ => 0xA000
  | .jpV0 _ => 0xB000
  | .rnd _ _ => 0xC000
  | .drw _ _ _ => 0xD000
  | .skp _ => 0xE09E
  | .sknp _ => 0xE0A1
  | .ldVxDt _ => 0xF007
  | .ldVxK _ => 0xF00A
  | .ldDtVx _ => 0xF015
  | .ldStVx _ => 0xF018
  | .addI _ => 0xF01E
  | .ldF _ => 0xF029
  | .ldB _ => 0xF033
  | .ldMemVx _ => 0xF055
  | .ldVxMem _ => 0xF065
  | .undef8XY8 _ _ => 0x8008
  | .undef8XY9 _ _ => 0x8009
  | .undef8XYA _ _ => 0x800A
  | .undef8XYB _ _ => 0x800B
  | .undef8XYC _ _ => 0x800C
  | .undef8XYD _ _ => 0x800D
  | .undef8XYF _ _ => 0x800F
  | .undefEXKK _ _ => 0xE000
  | .undefFXKK _ _ => 0xF000

/-- Whether an instruction is one of the nine rows of undefined words (30_encoding.md R69). -/
def Instr.isUndefined : Instr → Bool
  | .cls => false
  | .ret => false
  | .sys _ => false
  | .jp _ => false
  | .call _ => false
  | .seImm _ _ => false
  | .sneImm _ _ => false
  | .seReg _ _ _ => false
  | .ldImm _ _ => false
  | .addImm _ _ => false
  | .ldReg _ _ => false
  | .orReg _ _ => false
  | .andReg _ _ => false
  | .xorReg _ _ => false
  | .addReg _ _ => false
  | .subReg _ _ => false
  | .shr _ _ => false
  | .subnReg _ _ => false
  | .shl _ _ => false
  | .sneReg _ _ _ => false
  | .ldI _ => false
  | .jpV0 _ => false
  | .rnd _ _ => false
  | .drw _ _ _ => false
  | .skp _ => false
  | .sknp _ => false
  | .ldVxDt _ => false
  | .ldVxK _ => false
  | .ldDtVx _ => false
  | .ldStVx _ => false
  | .addI _ => false
  | .ldF _ => false
  | .ldB _ => false
  | .ldMemVx _ => false
  | .ldVxMem _ => false
  | .undef8XY8 _ _ => true
  | .undef8XY9 _ _ => true
  | .undef8XYA _ _ => true
  | .undef8XYB _ _ => true
  | .undef8XYC _ _ => true
  | .undef8XYD _ _ => true
  | .undef8XYF _ _ => true
  | .undefEXKK _ _ => true
  | .undefFXKK _ _ => true

/-! ## The host's numbering of an instruction's bits -/

/-- The longest instruction in bits (30_encoding.md R60: the only length). -/
def instrBits : Nat := 16

/-- The instruction word of table bits `w` of which `nbits` are given: the bits above them are zero. -/
def tableWord (nbits w : Nat) : Word := BitVec.ofNat instrBits (w % 2 ^ nbits)

/-- The instruction the decoder reads from table bits: the word is laid out high byte first and decoded. -/
def decodeTableWord (nbits w : Nat) : Option Instr :=
  match decode [highByte (tableWord nbits w), lowByte (tableWord nbits w)] with
  | .ok (i, _) => some i
  | .error _ => none

end Sys2Proof
end

