-- ==== Sys2Proof/HostCall.lean ====
section
/-! DEFINITION. The calls the host can make on the engine (00_scope.md R5). -/

namespace Sys2Proof.Machine

/-- The operations the host invokes on the engine other than `step_cycle` (00_scope.md R5, 60_exceptions.md R186). -/
inductive HostOp where
  /-- `tick_timers()`, 60_exceptions.md R176. -/
  | tickTimers
  /-- `set_key(index, down)` with any integer index, 60_exceptions.md R180. -/
  | setKey (index : Int) (down : Bool)
  /-- `clear_dirty()`, 60_exceptions.md R183. -/
  | clearDirty
  /-- `reset()`, 70_reset_and_hazards.md R200. -/
  | reset
  /-- `load_rom(image)`: `none` is an unreadable image, 70_reset_and_hazards.md R203. -/
  | loadRom (image : Option (List Byte))
  /-- A read of the ports, 60_exceptions.md R182: it changes nothing. -/
  | readPorts
  deriving DecidableEq, Repr

/-- One call the host makes (60_exceptions.md R186): `step_cycle()`, or another operation. -/
inductive HostCall where
  | stepCycle
  | op (o : HostOp)
  deriving DecidableEq, Repr, Inhabited

end Sys2Proof.Machine
end

