-- ==== Sys2Proof/Config.lean ====
section
/-! DEFINITION. The fixed parameters of 00_scope.md R4 and the two free values. -/

namespace Sys2Proof.Config

/-- MEM_SIZE: bytes of memory, addresses 0x000 to 0xFFF. -/
abbrev memSize : Nat := 4096
/-- FONT_BASE. -/
abbrev fontBase : Nat := 0x050
/-- FONT_GLYPHS. -/
abbrev fontGlyphs : Nat := 16
/-- GLYPH_BYTES. -/
abbrev glyphBytes : Nat := 5
/-- ROM_BASE: the load address and the reset value of pc. -/
abbrev romBase : Nat := 0x200
/-- ROM_MAX: the largest ROM image, 4096 - 512. -/
abbrev romMax : Nat := 3584

/-- FREE VALUE (log entry 3). RAND: the byte the n-th executed CXKK draws (42_load_and_alu.md R135, 60_exceptions.md R184).
It has no body: a statement about it holds whatever bytes the source returns. -/
opaque randomByte : Nat → Byte

/-- FREE VALUE (log entry 2). The n-th call of a host of whose order of calls nothing is known (60_exceptions.md R186). It has no
body: a statement about it holds whatever infinite sequence of calls the host makes. -/
opaque hostCall : Nat → Machine.HostCall

end Sys2Proof.Config
end

