-- ==== Sys2Proof/Machine/Font.lean ====
section
/-! DEFINITION. The font of 10_state.md R31 and the reset contents of memory (10_state.md R30). -/

namespace Sys2Proof.Machine

/-- The sixteen glyphs of the hex digits 0 to F, five bytes each, top row first (10_state.md R31; the spec marks the values
as general knowledge, D16: log entry 14). -/
def glyphs : List (List Byte) :=
  [[0xF0, 0x90, 0x90, 0x90, 0xF0],
   [0x20, 0x60, 0x20, 0x20, 0x70],
   [0xF0, 0x10, 0xF0, 0x80, 0xF0],
   [0xF0, 0x10, 0xF0, 0x10, 0xF0],
   [0x90, 0x90, 0xF0, 0x10, 0x10],
   [0xF0, 0x80, 0xF0, 0x10, 0xF0],
   [0xF0, 0x80, 0xF0, 0x90, 0xF0],
   [0xF0, 0x10, 0x20, 0x40, 0x40],
   [0xF0, 0x90, 0xF0, 0x90, 0xF0],
   [0xF0, 0x90, 0xF0, 0x10, 0xF0],
   [0xF0, 0x90, 0xF0, 0x90, 0x90],
   [0xE0, 0x90, 0xE0, 0x90, 0xE0],
   [0xF0, 0x80, 0x80, 0x80, 0xF0],
   [0xE0, 0x90, 0x90, 0x90, 0xE0],
   [0xF0, 0x80, 0xF0, 0x80, 0xF0],
   [0xF0, 0x80, 0xF0, 0x80, 0x80]]

/-- FONT[0..79] in address order: the glyphs one after the other (10_state.md R31). -/
def font : List Byte := glyphs.flatten

/-- The byte MEM[a] holds after `reset()`: the font at 0x050..0x09F, zero elsewhere (10_state.md R30). Memory lists only
the bytes that differ from it (log entry 1). -/
def resetByte (a : Nat) : Byte :=
  if Config.fontBase ≤ a ∧ a < Config.fontBase + Config.fontGlyphs * Config.glyphBytes then font.getD (a - Config.fontBase) 0 else 0

end Sys2Proof.Machine
end

