-- ==== Sys2Proof/Machine/State.lean ====
section
/-! DEFINITION. The state of the engine (10_state.md, the whole file), the order of the host's calls (60_exceptions.md R186), and why a step could stop. -/

namespace Sys2Proof.Machine

/-- MEM as the list of the bytes that differ from the reset contents, in rising order of address (log entry 1). -/
abbrev Memory := List Host.Cell

/-- DISP: 32 rows, row 0 the topmost, of 64 cells, column 0 the leftmost; a cell is on or off (10_state.md R19). -/
abbrev Display := Vector (Vector Bool 64) 32

/-- What the host calls once the listed calls are made. Between them the two forms hold every infinite order
(60_exceptions.md R186): a known one, and one of which nothing is known. -/
inductive LaterCalls where
  /-- These calls over and over, for ever; where none is listed, `step_cycle` for ever. -/
  | repeating (calls : List HostCall)
  /-- Any infinite order: the free value `Config.hostCall` from position `n` on. -/
  | free (n : Nat)
  deriving DecidableEq, Repr

/-- The order of the host's calls (60_exceptions.md R186; log entry 2): `next`, first one first, and then `later`. -/
structure Schedule where
  next : List HostCall
  later : LaterCalls
  deriving DecidableEq, Repr

/-- The host that calls `step_cycle` and nothing else. -/
def Schedule.stepping : Schedule where
  next := []
  later := .repeating []

/-- Everything 10_state.md gives the engine (R25: "There is no other state"), and two fields of the model's own:
`draws` (log entry 3) and `schedule` (log entry 2). -/
structure State where
  /-- V[0]..V[15], R10. -/
  v : Vector Byte 16
  /-- I, R13. -/
  i : Word
  /-- R12. -/
  pc : Word
  /-- SP, the next free entry of STACK, modulo 16, R15. -/
  sp : Reg
  /-- STACK[0..15], R14. -/
  stack : Vector Word 16
  /-- DT, R16. -/
  dt : Byte
  /-- ST, R17. -/
  st : Byte
  /-- KEY[0..15], `true` is pressed, R18. -/
  key : Vector Bool 16
  /-- DISP, R19. -/
  disp : Display
  /-- DIRTY, R20. -/
  dirty : Bool
  /-- WAIT, R21. -/
  wait : Option Reg
  /-- MEM, R23. -/
  mem : Memory
  /-- The model's own: how many random bytes CXKK has drawn; it indexes the free value `Config.randomByte` (log entry 3). -/
  draws : Nat
  /-- The model's own: the calls the host makes from here on, finitely or infinitely many (log entry 2). -/
  schedule : Schedule
  deriving DecidableEq, Repr

/-- The reasons the engine stops with a fault: none. "The engine raises no synchronous exception of any kind"
(60_exceptions.md R170), and R171 says what happens instead; so no constructor, and nobody raises one: safe. -/
inductive Fault where
  deriving DecidableEq, Repr

/-- The reasons the model refuses an instruction. -/
inductive Refusal where
  /-- An arm of `exec` whose instruction has no meaning yet. Every instruction has one, so no arm raises it: safe. -/
  | notModelled (mnemonic : String)
  deriving DecidableEq, Repr

/-- The machine right after `reset()`: the values of 10_state.md R30 (every one is the spec's). `draws` and `schedule` are
the model's own fields; their values here are DESIGN CHOICES (log entries 2 and 3). -/
def State.reset : State where
  v := Vector.replicate 16 0
  i := 0
  pc := 0x200
  sp := 0
  stack := Vector.replicate 16 0
  dt := 0
  st := 0
  key := Vector.replicate 16 false
  disp := Vector.replicate 32 (Vector.replicate 64 false)
  dirty := true
  wait := none
  mem := []
  draws := 0
  schedule := .stepping

end Sys2Proof.Machine
end

