-- ==== Sys2Proof/Machine/Ops.lean ====
section
/-! DEFINITION. The named operations over the engine's storage arrays (20_memory.md R40) and registers; every read and write
of State goes through one of them. There is no exception to take and none to return from (60_exceptions.md R170, R174). -/

namespace Sys2Proof.Machine

/-! ## Memory as data (log entry 1) -/

/-- The byte at address `a`: the listed one, else the reset contents. -/
def Memory.read : Memory → Nat → Byte
  | [], a => resetByte a
  | (k, b) :: m, a => if k = a then b else Memory.read m a

/-- Take the entry of address `a` out. -/
def Memory.erase : Memory → Nat → Memory
  | [], _ => []
  | (k, b) :: m, a => if k = a then Memory.erase m a else (k, b) :: Memory.erase m a

/-- Put an entry in at its place in the rising order. -/
def Memory.insert : Memory → Nat → Byte → Memory
  | [], a, b => [(a, b)]
  | (k, c) :: m, a, b => if a < k then (a, b) :: (k, c) :: m else (k, c) :: Memory.insert m a b

/-- Write byte `b` at address `a`; writing the reset contents takes the entry out. -/
def Memory.write (m : Memory) (a : Nat) (b : Byte) : Memory :=
  if b = resetByte a then Memory.erase m a else Memory.insert (Memory.erase m a) a b

/-- The canonical form: addresses strictly rising and below 4096, and no entry equal to the reset contents. -/
abbrev Memory.wf (m : Memory) : Prop :=
  m.Pairwise (fun c d => c.1 < d.1) ∧ ∀ c ∈ m, c.1 < Config.memSize ∧ c.2 ≠ resetByte c.1

/-! ## The order of the host's calls (60_exceptions.md R186; log entry 2) -/

/-- The host's next call. -/
def Schedule.head (c : Schedule) : HostCall :=
  match c.next with
  | call :: _ => call
  | [] =>
    match c.later with
    | .repeating [] => .stepCycle
    | .repeating (call :: _) => call
    | .free n => Config.hostCall n

/-- The order that is left once the next call has been made. -/
def Schedule.rest (c : Schedule) : Schedule :=
  match c.next with
  | _ :: calls => { c with next := calls }
  | [] =>
    match c.later with
    | .repeating calls => { c with next := calls.tail }
    | .free n => { c with later := .free (n + 1) }

/-! ## One write per field of State -/

namespace State

/-- `V[r] <- b` (10_state.md R10). -/
def setV (s : State) (r : Reg) (b : Byte) : State := { s with v := s.v.set r.toNat b r.isLt }
/-- `I <- w` (10_state.md R13). -/
def setI (s : State) (w : Word) : State := { s with i := w }
/-- `pc <- w` (10_state.md R12). -/
def setPc (s : State) (w : Word) : State := { s with pc := w }
/-- `SP <- j` (10_state.md R15). -/
def setSp (s : State) (j : Reg) : State := { s with sp := j }
/-- `STACK[j] <- w` (10_state.md R14). -/
def setStack (s : State) (j : Reg) (w : Word) : State := { s with stack := s.stack.set j.toNat w j.isLt }
/-- `DT <- b` (10_state.md R16). -/
def setDt (s : State) (b : Byte) : State := { s with dt := b }
/-- `ST <- b` (10_state.md R17). -/
def setSt (s : State) (b : Byte) : State := { s with st := b }
/-- `KEY[k] <- b` (10_state.md R18). -/
def setKeyLatch (s : State) (k : Reg) (b : Bool) : State := { s with key := s.key.set k.toNat b k.isLt }
/-- All of `DISP` (10_state.md R19). -/
def setDisp (s : State) (d : Display) : State := { s with disp := d }
/-- `DIRTY <- b` (10_state.md R20). -/
def setDirty (s : State) (b : Bool) : State := { s with dirty := b }
/-- `WAIT <- w` (10_state.md R21). -/
def setWait (s : State) (w : Option Reg) : State := { s with wait := w }
/-- All of `MEM` (10_state.md R23). -/
def setMem (s : State) (m : Memory) : State := { s with mem := m }
/-- The model's count of drawn bytes (log entry 3). -/
def setDraws (s : State) (n : Nat) : State := { s with draws := n }
/-- The model's order of host calls (log entry 2). -/
def setSchedule (s : State) (c : Schedule) : State := { s with schedule := c }

/-! ## Reads -/

/-- `V[r]` (10_state.md R10). -/
def getV (s : State) (r : Reg) : Byte := s.v[r.toNat]'r.isLt
/-- `STACK[j]` (10_state.md R14). -/
def getStack (s : State) (j : Reg) : Word := s.stack[j.toNat]'j.isLt
/-- `KEY[k]` (10_state.md R18). -/
def getKey (s : State) (k : Reg) : Bool := s.key[k.toNat]'k.isLt

/-- `MemRead(addr, 1)`: the address is any exact sum, reduced modulo 4096 (20_memory.md R42). -/
def memRead (s : State) (addr : Nat) : Byte := Memory.read s.mem (addr % Config.memSize)

/-- `MemWrite(addr, 1, b)` (20_memory.md R43). -/
def memWrite (s : State) (addr : Nat) (b : Byte) : State :=
  s.setMem (Memory.write s.mem (addr % Config.memSize) b)

/-- Write bytes at rising addresses from `addr`, one `MemWrite` each, first byte first. -/
def memWriteBytes (s : State) (addr : Nat) : List Byte → State
  | [] => s
  | b :: bs => (s.memWrite addr b).memWriteBytes (addr + 1) bs

/-! ## Fetch (30_encoding.md R66) -/

/-- The opcode at pc: high byte from `pc`, low byte from `pc + 1`, both reduced to 12 bits at the port (20_memory.md R44). -/
def fetchWord (s : State) : Word := wordOfBytes (s.memRead s.pc.toNat) (s.memRead (s.pc.toNat + 1))

/-- `pc <- (pc + 2) mod 65536`: the advance of the fetch, and the skip of 41_skips.md R110. -/
def advancePc (s : State) : State := s.setPc (s.pc + 2)

/-- Skip the next word when the condition holds (41_skips.md R110). -/
def skipIf (s : State) (c : Bool) : State := if c then s.advancePc else s

/-! ## The call stack (40_control_flow.md R101, R103) -/

/-- `STACK[SP] <- pc; SP <- (SP + 1) mod 16`. -/
def pushPc (s : State) : State := (s.setStack s.sp s.pc).setSp (s.sp + 1)

/-- `SP <- (SP - 1) mod 16; pc <- STACK[SP]`. -/
def popPc (s : State) : State := (s.setSp (s.sp - 1)).setPc (s.getStack (s.sp - 1))

/-! ## Register blocks (43_index_and_memory.md R144, R145) -/

/-- `for k in 0 .. n-1 ascending: MemWrite(I + k, 1, V[k])`. -/
def storeRegs (s : State) : Nat → State
  | 0 => s
  | n + 1 => (s.storeRegs n).memWrite (s.i.toNat + n) (s.getV (BitVec.ofNat 4 n))

/-- `for k in 0 .. n-1 ascending: V[k] <- MemRead(I + k, 1)`. -/
def loadRegs (s : State) : Nat → State
  | 0 => s
  | n + 1 => (s.loadRegs n).setV (BitVec.ofNat 4 n) (s.memRead (s.i.toNat + n))

/-! ## The random source (42_load_and_alu.md R135) -/

/-- The byte the next draw returns: a free value (log entry 3). -/
def nextRandom (s : State) : Byte := Config.randomByte s.draws

/-- One byte has been drawn. -/
def countDraw (s : State) : State := s.setDraws (s.draws + 1)

end State

/-! ## The display and the sprite unit (44_display.md R151 to R153) -/

/-- `DISP[y][x]` of the cell that column `x` and row `y` wrap to (44_display.md R152). -/
def dispGet (d : Display) (x y : Nat) : Bool :=
  (d[y % 32]'(Nat.mod_lt _ (by decide)))[x % 64]'(Nat.mod_lt _ (by decide))

/-- `DISP[y][x] <- DISP[y][x] XOR 1` of the cell that column `x` and row `y` wrap to. -/
def dispFlip (d : Display) (x y : Nat) : Display :=
  let row := d[y % 32]'(Nat.mod_lt _ (by decide))
  d.set (y % 32) (row.set (x % 64) (!dispGet d x y) (Nat.mod_lt _ (by decide))) (Nat.mod_lt _ (by decide))

/-- Every cell off (44_display.md R150). -/
def dispClear : Display := Vector.replicate 32 (Vector.replicate 64 false)

/-- A display under drawing, and whether a cell has gone from on to off so far (44_display.md R153). -/
abbrev Canvas := Display × Bool

/-- One pixel of a sprite: a set bit flips its cell and collides with a lit one; a clear bit does nothing. -/
def drawPixel (bit : Bool) (x y : Nat) (c : Canvas) : Canvas :=
  if bit then (dispFlip c.1 x y, c.2 || dispGet c.1 x y) else c

/-- The first `n` pixels of a sprite row, column 0 (bit 7) first. -/
def drawRow (b : Byte) (x y : Nat) : Nat → Canvas → Canvas
  | 0, c => c
  | n + 1, c => drawPixel (b.getLsbD (7 - n)) (x + n) y (drawRow b x y n c)

/-- The first `n` rows of a sprite whose row bytes `rows` gives, row 0 first. -/
def drawRows (rows : Nat → Byte) (x y : Nat) : Nat → Canvas → Canvas
  | 0, c => c
  | n + 1, c => drawRow (rows n) x (y + n) 8 (drawRows rows x y n c)

/-! ## The wait-for-key poll (45_timers_and_keys.md R164) -/

/-- The lowest-numbered pressed key below `n`, scanning upwards. -/
def lowestKey (key : Reg → Bool) : Nat → Option Reg
  | 0 => none
  | n + 1 =>
    match lowestKey key n with
    | some k => some k
    | none => if key (BitVec.ofNat 4 n) then some (BitVec.ofNat 4 n) else none

/-- `wait_poll()` for the waiting register `r`. -/
def waitPoll (r : Reg) (s : State) : State :=
  match lowestKey s.getKey 16 with
  | some k => (s.setV r (k.setWidth 8)).setWait none
  | none => s

end Sys2Proof.Machine
end

