-- ==== Sys2Proof/Machine/Operands.lean ====
section
/-! DEFINITION. The operand forms (30_encoding.md R63): registers V[X] and V[Y] (`State.getV`), immediates zero-extended, the
low four bits of a register as a key number or digit, and the one addressing mode, `I + offset` (43_index_and_memory.md R146). -/

namespace Sys2Proof.Machine

/-- `zext_16(NNN)` (30_encoding.md R63). -/
def zextAddr (nnn : Addr12) : Word := nnn.setWidth 16

/-- `zext_16(V[X])`. -/
def zextByte (b : Byte) : Word := b.setWidth 16

/-- `v[3:0]`: the key number of 41_skips.md R115, R116 and the digit of 43_index_and_memory.md R142. -/
def lowNibble (b : Byte) : Reg := b.extractLsb' 0 4

/-- The address of data access number `k`, exact before the memory port reduces it (43_index_and_memory.md R146). -/
def dataAddr (s : State) (k : Nat) : Nat := s.i.toNat + k

/-- The address of the glyph of digit `d`: `0x050 + 5 * d` (43_index_and_memory.md R142). -/
def glyphAddr (d : Reg) : Word := BitVec.ofNat 16 (Config.fontBase + Config.glyphBytes * d.toNat)

/-- How many registers FX55 and FX65 move: `X + 1` (43_index_and_memory.md R144, R145). -/
def blockCount (x : Reg) : Nat := x.toNat + 1

/-- The three decimal digits of a byte, hundreds first (43_index_and_memory.md R143). -/
def decimalDigits (b : Byte) : List Byte :=
  [BitVec.ofNat 8 (b.toNat / 100), BitVec.ofNat 8 (b.toNat / 10 % 10), BitVec.ofNat 8 (b.toNat % 10)]

end Sys2Proof.Machine
end

