-- ==== Sys2Proof/Machine/ControlFlow.lean ====
section
/-! DEFINITION. Control flow (40_control_flow.md R100 to R105). Every meaning here is `execute(op)` only: pc has already been advanced (30_encoding.md R73). -/

namespace Sys2Proof.Machine

/-- SYS, 0NNN: "('call machine code') is a no-op" (R100). -/
def execSys (_nnn : Addr12) (s : State) : Host.Outcome State Fault Refusal :=
  .next s

/-- RET, 00EE (R101). -/
def execRet (s : State) : Host.Outcome State Fault Refusal :=
  .next s.popPc

/-- JP, 1NNN (R102). -/
def execJp (nnn : Addr12) (s : State) : Host.Outcome State Fault Refusal :=
  .next (s.setPc (zextAddr nnn))

/-- CALL, 2NNN (R103). -/
def execCall (nnn : Addr12) (s : State) : Host.Outcome State Fault Refusal :=
  .next (s.pushPc.setPc (zextAddr nnn))

/-- JP V0, BNNN: the offset register is always V0 (R104). -/
def execJpV0 (nnn : Addr12) (s : State) : Host.Outcome State Fault Refusal :=
  .next (s.setPc (zextAddr nnn + zextByte (s.getV 0)))

end Sys2Proof.Machine
end

