-- ==== Sys2Proof/Machine/Flags.lean ====
section
/-! DEFINITION. The flag VF receives (10_state.md R11) and the two-phase order of the flag-writing instructions
(42_load_and_alu.md R126). There is no flags register. -/

namespace Sys2Proof.Machine

/-- A flag as VF holds it: 1 or 0. -/
def flagByte (b : Bool) : Byte := if b then 1 else 0

/-- Carry of 8XY4: the exact sum exceeds 255 (42_load_and_alu.md R127). -/
def carryFlag (a b : Byte) : Byte := flagByte (decide (a.toNat + b.toNat > 255))

/-- Flag of 8XY5 and 8XY7: the minuend is strictly greater, unsigned (42_load_and_alu.md R128, R132; 90_conflicts.md C5). -/
def greaterFlag (minuend subtrahend : Byte) : Byte := flagByte (decide (minuend.toNat > subtrahend.toNat))

/-- The bit 8XY6 shifts out (42_load_and_alu.md R131). -/
def shiftedOutRight (a : Byte) : Byte := flagByte (a.getLsbD 0)

/-- The bit 8XYE shifts out (42_load_and_alu.md R133). -/
def shiftedOutLeft (a : Byte) : Byte := flagByte (a.getLsbD 7)

/-- The two phases of 42_load_and_alu.md R126: `V[0xF] <- flag`, then the operand registers are read AGAIN (so that they show
the new flag where one of them is VF) and `V[x] <- result`. -/
def flagThenResult (x : Reg) (flag : Byte) (result : State → Byte) (s : State) : State :=
  let t := s.setV vf flag
  t.setV x (result t)

end Sys2Proof.Machine
end

