-- ==== Sys2Proof/Machine/Display.lean ====
section
/-! DEFINITION. The display instructions (44_display.md R150 to R153). Every meaning here is `execute(op)` only: pc has already been advanced (30_encoding.md R73). -/

namespace Sys2Proof.Machine

/-- CLS, 00E0 (R150). -/
def execCls (s : State) : Host.Outcome State Fault Refusal :=
  .next ((s.setDisp dispClear).setDirty true)

/-- DRW VX, VY, N, DXYN: the coordinates are read before VF is written; VF is the collision flag; DIRTY is always set (R151). -/
def execDrw (x y : Reg) (n : Nibble) (s : State) : Host.Outcome State Fault Refusal :=
  let c := drawRows (fun r => s.memRead (dataAddr s r)) (s.getV x).toNat (s.getV y).toNat n.toNat (s.disp, false)
  .next (((s.setV vf (flagByte c.2)).setDisp c.1).setDirty true)

end Sys2Proof.Machine
end

