-- ==== Sys2Proof/Machine/IndexMemory.lean ====
section
/-! DEFINITION. The index register and memory (43_index_and_memory.md R140 to R146). Every meaning here is `execute(op)` only: pc has already been advanced (30_encoding.md R73). -/

namespace Sys2Proof.Machine

/-- LD I, NNN, ANNN (R140). -/
def execLdI (nnn : Addr12) (s : State) : Host.Outcome State Fault Refusal :=
  .next (s.setI (zextAddr nnn))

/-- ADD I, VX, FX1E: VF is not written (R141). -/
def execAddI (x : Reg) (s : State) : Host.Outcome State Fault Refusal :=
  .next (s.setI (s.i + zextByte (s.getV x)))

/-- LD F, VX, FX29: the low four bits of V[X] are the digit (R142). -/
def execLdF (x : Reg) (s : State) : Host.Outcome State Fault Refusal :=
  .next (s.setI (glyphAddr (lowNibble (s.getV x))))

/-- LD B, VX, FX33 (R143). -/
def execLdB (x : Reg) (s : State) : Host.Outcome State Fault Refusal :=
  .next (s.memWriteBytes (dataAddr s 0) (decimalDigits (s.getV x)))

/-- LD [I], VX, FX55: stores V0..VX, then I <- I + X + 1 (R144). -/
def execLdMemVx (x : Reg) (s : State) : Host.Outcome State Fault Refusal :=
  .next ((s.storeRegs (blockCount x)).setI (s.i + BitVec.ofNat 16 (blockCount x)))

/-- LD VX, [I], FX65: loads V0..VX, then I <- I + X + 1 (R145). -/
def execLdVxMem (x : Reg) (s : State) : Host.Outcome State Fault Refusal :=
  .next ((s.loadRegs (blockCount x)).setI (s.i + BitVec.ofNat 16 (blockCount x)))

end Sys2Proof.Machine
end

