-- ==== Sys2Proof/Machine/LoadAlu.lean ====
section
/-! DEFINITION. Load, arithmetic, logic, shift and random (42_load_and_alu.md R120 to R135); bit-vector addition and
subtraction are the sums modulo 256 of R129. Every meaning here is `execute(op)` only: pc has already been advanced (30_encoding.md R73). -/

namespace Sys2Proof.Machine

/-- LD VX, KK, 6XKK (R120). -/
def execLdImm (x : Reg) (kk : Byte) (s : State) : Host.Outcome State Fault Refusal :=
  .next (s.setV x kk)

/-- ADD VX, KK, 7XKK: no flag (R121). -/
def execAddImm (x : Reg) (kk : Byte) (s : State) : Host.Outcome State Fault Refusal :=
  .next (s.setV x (s.getV x + kk))

/-- LD VX, VY, 8XY0 (R122). -/
def execLdReg (x y : Reg) (s : State) : Host.Outcome State Fault Refusal :=
  .next (s.setV x (s.getV y))

/-- OR VX, VY, 8XY1: VF is not written as a flag (R123). -/
def execOrReg (x y : Reg) (s : State) : Host.Outcome State Fault Refusal :=
  .next (s.setV x (s.getV x ||| s.getV y))

/-- AND VX, VY, 8XY2: VF is not written as a flag (R124). -/
def execAndReg (x y : Reg) (s : State) : Host.Outcome State Fault Refusal :=
  .next (s.setV x (s.getV x &&& s.getV y))

/-- XOR VX, VY, 8XY3: VF is not written as a flag (R125). -/
def execXorReg (x y : Reg) (s : State) : Host.Outcome State Fault Refusal :=
  .next (s.setV x (s.getV x ^^^ s.getV y))

/-- ADD VX, VY, 8XY4: carry to VF, then the sum of the registers read again (R127, R126). -/
def execAddReg (x y : Reg) (s : State) : Host.Outcome State Fault Refusal :=
  .next (flagThenResult x (carryFlag (s.getV x) (s.getV y)) (fun t => t.getV x + t.getV y) s)

/-- SUB VX, VY, 8XY5: VF = (VX > VY), then VX - VY read again (R128, R126). -/
def execSubReg (x y : Reg) (s : State) : Host.Outcome State Fault Refusal :=
  .next (flagThenResult x (greaterFlag (s.getV x) (s.getV y)) (fun t => t.getV x - t.getV y) s)

/-- SUBN VX, VY, 8XY7: VF = (VY > VX), then VY - VX read again (R132, R126). -/
def execSubnReg (x y : Reg) (s : State) : Host.Outcome State Fault Refusal :=
  .next (flagThenResult x (greaterFlag (s.getV y) (s.getV x)) (fun t => t.getV y - t.getV x) s)

/-- SHR VX, 8XY6: VF = bit 0, then VX >> 1 read again; Y is ignored (R131, R126). -/
def execShr (x _y : Reg) (s : State) : Host.Outcome State Fault Refusal :=
  .next (flagThenResult x (shiftedOutRight (s.getV x)) (fun t => t.getV x >>> 1) s)

/-- SHL VX, 8XYE: VF = bit 7, then VX << 1 read again; Y is ignored (R133, R126). -/
def execShl (x _y : Reg) (s : State) : Host.Outcome State Fault Refusal :=
  .next (flagThenResult x (shiftedOutLeft (s.getV x)) (fun t => t.getV x <<< 1) s)

/-- RND VX, KK, CXKK: one byte is drawn and ANDed with KK (R135; the byte is a free value, log entry 3). -/
def execRnd (x : Reg) (kk : Byte) (s : State) : Host.Outcome State Fault Refusal :=
  .next (s.countDraw.setV x (s.nextRandom &&& kk))

end Sys2Proof.Machine
end

