-- ==== Sys2Proof/Machine/Skips.lean ====
section
/-! DEFINITION. The conditional skips (41_skips.md R110 to R116). Every meaning here is `execute(op)` only: pc has already been advanced (30_encoding.md R73). -/

namespace Sys2Proof.Machine

/-- SE VX, KK, 3XKK (R111). -/
def execSeImm (x : Reg) (kk : Byte) (s : State) : Host.Outcome State Fault Refusal :=
  .next (s.skipIf (s.getV x == kk))

/-- SNE VX, KK, 4XKK (R112). -/
def execSneImm (x : Reg) (kk : Byte) (s : State) : Host.Outcome State Fault Refusal :=
  .next (s.skipIf (s.getV x != kk))

/-- SE VX, VY, 5XYN; N is not decoded (R113). -/
def execSeReg (x y : Reg) (_n : Nibble) (s : State) : Host.Outcome State Fault Refusal :=
  .next (s.skipIf (s.getV x == s.getV y))

/-- SNE VX, VY, 9XYN; N is not decoded (R114). -/
def execSneReg (x y : Reg) (_n : Nibble) (s : State) : Host.Outcome State Fault Refusal :=
  .next (s.skipIf (s.getV x != s.getV y))

/-- SKP VX, EX9E: the low four bits of V[X] select the key (R115). -/
def execSkp (x : Reg) (s : State) : Host.Outcome State Fault Refusal :=
  .next (s.skipIf (s.getKey (lowNibble (s.getV x))))

/-- SKNP VX, EXA1 (R116). -/
def execSknp (x : Reg) (s : State) : Host.Outcome State Fault Refusal :=
  .next (s.skipIf (!s.getKey (lowNibble (s.getV x))))

end Sys2Proof.Machine
end

