-- ==== Sys2Proof/Machine/Undefined.lean ====
section
/-! DEFINITION. The undefined words (30_encoding.md R68, R69): "silently treated as no-ops, never raised as errors". Every meaning here is `execute(op)` only: pc has already been advanced (30_encoding.md R73). -/

namespace Sys2Proof.Machine

/-- 8XY8 (R68). -/
def execUndef8XY8 (_x _y : Reg) (s : State) : Host.Outcome State Fault Refusal :=
  .next s

/-- 8XY9 (R68). -/
def execUndef8XY9 (_x _y : Reg) (s : State) : Host.Outcome State Fault Refusal :=
  .next s

/-- 8XYA (R68). -/
def execUndef8XYA (_x _y : Reg) (s : State) : Host.Outcome State Fault Refusal :=
  .next s

/-- 8XYB (R68). -/
def execUndef8XYB (_x _y : Reg) (s : State) : Host.Outcome State Fault Refusal :=
  .next s

/-- 8XYC (R68). -/
def execUndef8XYC (_x _y : Reg) (s : State) : Host.Outcome State Fault Refusal :=
  .next s

/-- 8XYD (R68). -/
def execUndef8XYD (_x _y : Reg) (s : State) : Host.Outcome State Fault Refusal :=
  .next s

/-- 8XYF (R68). -/
def execUndef8XYF (_x _y : Reg) (s : State) : Host.Outcome State Fault Refusal :=
  .next s

/-- EXKK (R68). -/
def execUndefEXKK (_x : Reg) (_kk : Byte) (s : State) : Host.Outcome State Fault Refusal :=
  .next s

/-- FXKK (R68). -/
def execUndefFXKK (_x : Reg) (_kk : Byte) (s : State) : Host.Outcome State Fault Refusal :=
  .next s

end Sys2Proof.Machine
end

