-- ==== Sys2Proof/Machine/HostOps.lean ====
section
/-! DEFINITION. The operations the host invokes besides `step_cycle`, and the engine's read ports
(60_exceptions.md R176 to R183; 70_reset_and_hazards.md R200, R203). -/

namespace Sys2Proof.Machine

/-- One timer's decrement: by one if it is above 0 (60_exceptions.md R176). -/
def tickTimer (t : Byte) : Byte := if t > 0 then t - 1 else t

/-- `tick_timers()` (60_exceptions.md R176). -/
def tickTimers (s : State) : State := (s.setDt (tickTimer s.dt)).setSt (tickTimer s.st)

/-- `set_key(index, down)`: an index outside 0..15 is ignored (60_exceptions.md R180). -/
def setKey (index : Int) (down : Bool) (s : State) : State :=
  if 0 ≤ index ∧ index < 16 then s.setKeyLatch (BitVec.ofNat 4 index.toNat) down else s

/-- `clear_dirty()` (60_exceptions.md R183). -/
def clearDirty (s : State) : State := s.setDirty false

/-- `reset()`: every piece of the engine's state takes its reset value (70_reset_and_hazards.md R200). The model's own fields
stay: the random source is not reseeded (92_eei_decisions.md D20) and the host's next calls are the host's (log entry 4). -/
def hostReset (s : State) : State := (State.reset.setDraws s.draws).setSchedule s.schedule

/-- Whether `load_rom(image)` succeeds: the image was readable and has at most 3584 bytes (70_reset_and_hazards.md R203). -/
def loadRomSucceeds : Option (List Byte) → Bool
  | none => false
  | some bytes => decide (bytes.length ≤ Config.romMax)

/-- The state `load_rom(image)` leaves: reset first, then the image verbatim at 0x200, or nothing on failure
(70_reset_and_hazards.md R203; 90_conflicts.md C3). -/
def loadRomState (image : Option (List Byte)) (s : State) : State :=
  match image with
  | none => hostReset s
  | some bytes =>
    if bytes.length ≤ Config.romMax then (hostReset s).memWriteBytes Config.romBase bytes else hostReset s

/-- `load_rom(image)`: the state it leaves and the success flag it returns to the host (70_reset_and_hazards.md R203). -/
def loadRom (image : Option (List Byte)) (s : State) : State × Bool := (loadRomState image s, loadRomSucceeds image)

/-! ## Read ports (60_exceptions.md R182): functions of the state -/

/-- The display buffer as 2048 bytes of value 0 or 1, element `y*64 + x` (10_state.md R19). -/
def displayPort (s : State) : List Byte :=
  s.disp.toList.flatMap fun row => row.toList.map fun cell => if cell then 1 else 0

/-- DIRTY. -/
def dirtyPort (s : State) : Bool := s.dirty

/-- `sound_active = (ST > 0)` (60_exceptions.md R178). -/
def soundActive (s : State) : Bool := decide (s.st > 0)

/-- The sixteen key latches. -/
def keyPort (s : State) : List Bool := s.key.toList

/-- What a host operation does to the state (60_exceptions.md R186). -/
def performHostOp : HostOp → State → State
  | .tickTimers, s => tickTimers s
  | .setKey index down, s => setKey index down s
  | .clearDirty, s => clearDirty s
  | .reset, s => hostReset s
  | .loadRom image, s => loadRomState image s
  | .readPorts, s => s

end Sys2Proof.Machine
end

