-- ==== Sys2Proof/Machine/Step.lean ====
section
/-! DEFINITION. One step of the machine: `step_cycle` (30_encoding.md R66), or another call the host makes
(60_exceptions.md R186). -/

namespace Sys2Proof.Machine

/-- `step_cycle()`: the wait-for-key poll while a wait is pending; otherwise fetch, advance pc by 2, execute (R66). -/
def stepCycle (s : State) : Host.Outcome State Fault Refusal :=
  match s.wait with
  | some r => .next (waitPoll r s)
  | none => exec (decodeWord s.fetchWord) s.advancePc

/-- One call of the host: `step_cycle`, or another operation. -/
def performCall : HostCall → State → Host.Outcome State Fault Refusal
  | .stepCycle, s => stepCycle s
  | .op o, s => .next (performHostOp o s)

/-- One step: the next call of the schedule, which is then taken from it (log entry 2). -/
def step (s : State) : Host.Outcome State Fault Refusal :=
  performCall s.schedule.head (s.setSchedule s.schedule.rest)

/-- `s` with the instruction of table bits `w` stored where `step` fetches next. The fetch needs three things and this sets
exactly them: the two bytes at pc, no pending wait, no other host call before it (log entry 5). -/
def State.withFetchWord (s : State) (nbits w : Nat) : State :=
  ((s.memWriteBytes s.pc.toNat [highByte (tableWord nbits w), lowByte (tableWord nbits w)]).setWait none).setSchedule .stepping

end Sys2Proof.Machine
end

