-- ==== Sys2Proof/Safety.lean ====
section
/-! DEFINITION. The terms claims are stated in: the parts of the state a claim can name, what "changes only these" means, the
invariant, and when a run counts as ended. No step faults (60_exceptions.md R170), so every run is safe in that sense. -/

namespace Sys2Proof.Machine

/-- One observable part of the state; together they are all of it (10_state.md R25). -/
inductive Component where
  | reg (r : Reg)
  | index
  | pc
  | sp
  | stackEntry (j : Reg)
  | dt
  | st
  | key (k : Reg)
  /-- The display cell at column `x`, row `y`. -/
  | cell (x y : Nat)
  | dirty
  | wait
  /-- The memory byte that `MemRead` gives for address `a`. -/
  | byte (a : Nat)
  | draws
  | schedule

/-- The two states agree on a component. -/
def Component.Same (s t : State) : Component → Prop
  | .reg r => t.getV r = s.getV r
  | .index => t.i = s.i
  | .pc => t.pc = s.pc
  | .sp => t.sp = s.sp
  | .stackEntry j => t.getStack j = s.getStack j
  | .dt => t.dt = s.dt
  | .st => t.st = s.st
  | .key k => t.getKey k = s.getKey k
  | .cell x y => dispGet t.disp x y = dispGet s.disp x y
  | .dirty => t.dirty = s.dirty
  | .wait => t.wait = s.wait
  | .byte a => t.memRead a = s.memRead a
  | .draws => t.draws = s.draws
  | .schedule => t.schedule = s.schedule

/-- `t` differs from `s` at most in the components `W` names. -/
def ChangesOnly (W : Component → Prop) (s t : State) : Prop := ∀ c, ¬ W c → c.Same s t

/-- The invariant every step keeps: memory is in its canonical form. The widths of all other fields are their types'. -/
def State.Inv (s : State) : Prop := Memory.wf s.mem

/-- The next call of the host is `step_cycle` (log entry 2). -/
def State.cycleNext (s : State) : Bool :=
  match s.schedule.head with
  | .stepCycle => true
  | .op _ => false

/-- The state once its next call has been taken from the schedule. -/
def State.takeCall (s : State) : State := s.setSchedule s.schedule.rest

/-- The infinite sequence of calls a schedule stands for. -/
def Schedule.calls (c : Schedule) : Nat → HostCall
  | 0 => c.head
  | n + 1 => c.rest.calls n

/-- `run` is the run of the engine under the calls `calls`, any infinite sequence (60_exceptions.md R186): call `n` leads from
`run n` to `run (n + 1)`. A premise about the host (that it keeps calling `tick_timers`, say) is a premise about `calls`. -/
def HostRun (calls : Nat → HostCall) (run : Nat → State) : Prop :=
  ∀ n, performCall (calls n) (run n) = .next (run (n + 1))

/-- `run` is the run of the machine's own step. -/
def StepRun (run : Nat → State) : Prop :=
  ∀ n, step (run n) = .next (run (n + 1))

/-- The undefined words by number (30_encoding.md R69): 8XYN with N in 8..D or F; EXKK with KK neither 9E nor A1; FXKK with KK
none of 07, 0A, 15, 18, 1E, 29, 33, 55, 65. -/
def UndefinedNumber (w : Nat) : Prop :=
  (w / 4096 = 0x8 ∧ (w % 16 = 0x8 ∨ w % 16 = 0x9 ∨ w % 16 = 0xA ∨ w % 16 = 0xB ∨ w % 16 = 0xC ∨ w % 16 = 0xD ∨ w % 16 = 0xF)) ∨
  (w / 4096 = 0xE ∧ w % 256 ≠ 0x9E ∧ w % 256 ≠ 0xA1) ∨
  (w / 4096 = 0xF ∧ w % 256 ≠ 0x07 ∧ w % 256 ≠ 0x0A ∧ w % 256 ≠ 0x15 ∧ w % 256 ≠ 0x18 ∧ w % 256 ≠ 0x1E ∧ w % 256 ≠ 0x29 ∧
    w % 256 ≠ 0x33 ∧ w % 256 ≠ 0x55 ∧ w % 256 ≠ 0x65)

/-- A set bit of the sprite whose row bytes are `rows` (`n` rows), drawn from column `x0` and row `y0`, lands on the cell at
column `x` and row `y` (44_display.md R152). -/
def SpriteCovers (rows : Nat → Byte) (x0 y0 n x y : Nat) : Prop :=
  ∃ r, r < n ∧ ∃ c, c < 8 ∧ (rows r).getLsbD (7 - c) = true ∧ (x0 + c) % 64 = x % 64 ∧ (y0 + r) % 32 = y % 32

/-- The reset values of 10_state.md R30 (70_reset_and_hazards.md R200). The model's own fields `draws` and `schedule` are left
out: the spec gives them no value. -/
structure ResetValues (s : State) : Prop where
  registers : ∀ r, s.getV r = 0
  index : s.i = 0
  pc : s.pc = 0x200
  sp : s.sp = 0
  stack : ∀ j, s.getStack j = 0
  dt : s.dt = 0
  st : s.st = 0
  keys : ∀ k, s.getKey k = false
  display : ∀ x y, dispGet s.disp x y = false
  dirty : s.dirty = true
  wait : s.wait = none
  fontBytes : ∀ n, n < 80 → s.memRead (0x050 + n) = font.getD n 0
  otherBytes : ∀ a, a < 4096 → ¬ (0x050 ≤ a ∧ a < 0x0A0) → s.memRead a = 0

/-- The general registers an instruction may write: its destination V[X], V0..VX for FX65, and VF for the instructions that
write a flag (10_state.md R11). -/
def mayWriteReg (i : Instr) (r : Reg) : Prop :=
  match i with
  | .ldImm x _ | .addImm x _ | .ldReg x _ | .orReg x _ | .andReg x _ | .xorReg x _ | .rnd x _ | .ldVxDt x => r = x
  | .addReg x _ | .subReg x _ | .subnReg x _ | .shr x _ | .shl x _ => r = x ∨ r = vf
  | .drw _ _ _ => r = vf
  | .ldVxMem x => r.toNat ≤ x.toNat
  | .cls | .ret | .sys _ | .jp _ | .call _ | .jpV0 _ | .seImm _ _ | .sneImm _ _ | .seReg _ _ _ | .sneReg _ _ _ | .skp _ | .sknp _
  | .ldI _ | .addI _ | .ldF _ | .ldB _ | .ldMemVx _ | .ldVxK _ | .ldDtVx _ | .ldStVx _
  | .undef8XY8 _ _ | .undef8XY9 _ _ | .undef8XYA _ _ | .undef8XYB _ _ | .undef8XYC _ _ | .undef8XYD _ _ | .undef8XYF _ _
  | .undefEXKK _ _ | .undefFXKK _ _ => False

/-- The instructions that write pc other than by the fetch's advance (10_state.md R12). -/
def writesPc : Instr → Bool
  | .ret | .jp _ | .call _ | .jpV0 _ | .seImm _ _ | .sneImm _ _ | .seReg _ _ _ | .sneReg _ _ _ | .skp _ | .sknp _ => true
  | .cls | .sys _ | .ldImm _ _ | .addImm _ _ | .ldReg _ _ | .orReg _ _ | .andReg _ _ | .xorReg _ _ | .addReg _ _ | .subReg _ _
  | .shr _ _ | .subnReg _ _ | .shl _ _ | .ldI _ | .rnd _ _ | .drw _ _ _ | .ldVxDt _ | .ldVxK _ | .ldDtVx _ | .ldStVx _ | .addI _
  | .ldF _ | .ldB _ | .ldMemVx _ | .ldVxMem _
  | .undef8XY8 _ _ | .undef8XY9 _ _ | .undef8XYA _ _ | .undef8XYB _ _ | .undef8XYC _ _ | .undef8XYD _ _ | .undef8XYF _ _
  | .undefEXKK _ _ | .undefFXKK _ _ => false

/-- The instructions that write I (10_state.md R13). -/
def writesIndex : Instr → Bool
  | .ldI _ | .addI _ | .ldF _ | .ldMemVx _ | .ldVxMem _ => true
  | .cls | .ret | .sys _ | .jp _ | .call _ | .jpV0 _ | .seImm _ _ | .sneImm _ _ | .seReg _ _ _ | .sneReg _ _ _ | .skp _ | .sknp _
  | .ldImm _ _ | .addImm _ _ | .ldReg _ _ | .orReg _ _ | .andReg _ _ | .xorReg _ _ | .addReg _ _ | .subReg _ _
  | .shr _ _ | .subnReg _ _ | .shl _ _ | .rnd _ _ | .drw _ _ _ | .ldVxDt _ | .ldVxK _ | .ldDtVx _ | .ldStVx _ | .ldB _
  | .undef8XY8 _ _ | .undef8XY9 _ _ | .undef8XYA _ _ | .undef8XYB _ _ | .undef8XYC _ _ | .undef8XYD _ _ | .undef8XYF _ _
  | .undefEXKK _ _ | .undefFXKK _ _ => false

/-- Calls nested one inside the other, each executed with the pc (already advanced, so the return address) given with it. -/
def nestCalls : List (Word × Addr12) → State → Host.Outcome State Fault Refusal
  | [], s => .next s
  | (returnAddr, nnn) :: rest, s =>
    match exec (.call nnn) (s.setPc returnAddr) with
    | .next t => nestCalls rest t
    | .fault f => .fault f
    | .refused r => .refused r

/-- The addresses that `n` returns, executed one after the other, go to; `none` if one of them stops. -/
def returnAddresses : Nat → State → Option (List Word)
  | 0, _ => some []
  | n + 1, s =>
    match exec .ret s with
    | .next t => (returnAddresses n t).map (t.pc :: ·)
    | .fault _ => none
    | .refused _ => none

/-- 60_exceptions.md R185: the engine is AWAITING_KEY while a wait is pending, else RUNNING. -/
def State.awaitingKey (s : State) : Bool := s.wait.isSome

/-- The end-of-run definition 70_reset_and_hazards.md R215 offers (decision D24): a jump to itself, below 0x1000, with no wait
pending. -/
def State.ended (s : State) : Prop :=
  s.wait = none ∧ s.pc.toNat < 0x1000 ∧ ∃ nnn : Addr12, decodeWord s.fetchWord = .jp nnn ∧ nnn.toNat = s.pc.toNat

end Sys2Proof.Machine
end

