-- ==== Sys2Proof/Certificates/Slice0/Obligations.lean ====
section
/-! DEFINITION. The statements for the provers: the numbered rules of spec/ that say what the engine does. Where a clause rests
on a decision or on general knowledge that the spec itself marks, or on a choice of the model, the docstring says so and names
the log entry. -/

open Sys2Proof Sys2Proof.Machine

/-- For every well-formed instruction of the whole set, with every operand at every value its row admits, decoding its
encoded bytes (followed by any bytes) gives it back and leaves the following bytes. The sub-decode of families 0, 5
and 9 is the spec's own decision (D6, D7; log entry 10). (30_encoding.md sections 1 and 3, 20_memory.md section 4,
92_eei_decisions.md D6, D7) -/
def Obligations.DecodeOfEncodedBytesIsTheInstruction : Prop :=
  ∀ (i : Instr) (rest : List Byte), i.wellFormed = true → decode (encodeBytes i ++ rest) = .ok (i, rest)

/-- For each of the 65536 words, the decoder gives a well-formed instruction, and encoding it gives the word back: no
bit of a word is dropped. That the bits the spec does not decode (N of 5XYN and 9XYN, Y of the shifts, NNN of SYS)
are kept as fields is the model's choice (log entry 7); that every family-0 word but 00E0 and 00EE is SYS, and that
N is not examined, are the spec's decisions D6, D7 (log entry 10). (30_encoding.md section 3, 30_encoding.md section
4, 92_eei_decisions.md D6, D7) -/
def Obligations.EncodeOfDecodedWordIsTheWord : Prop :=
  ∀ w : Word, (decodeWord w).wellFormed = true ∧ encode (decodeWord w) = w

/-- For every word, the word masked with the mask of the decoded instruction's row of the opcode table is that row's
match value. (30_encoding.md section 3, opcode_table.json mask and match columns) -/
def Obligations.DecodedWordLiesInItsTableRow : Prop :=
  ∀ w : Word, w &&& (decodeWord w).rowMask = (decodeWord w).rowMatch

/-- F, X, Y, N are the four hex digits of the word, most significant first; KK is its low byte and equals Y then N; NNN
is its low 12 bits and equals X then Y then N. (R61) -/
def Obligations.FieldsAreTheHexDigitsOfTheWord : Prop :=
  ∀ w : Word,
    (fieldF w).toNat = w.toNat / 4096 ∧ (fieldX w).toNat = w.toNat / 256 % 16 ∧ (fieldY w).toNat = w.toNat / 16 % 16 ∧
    (fieldN w).toNat = w.toNat % 16 ∧ (fieldKK w).toNat = w.toNat % 256 ∧ (fieldNNN w).toNat = w.toNat % 4096 ∧
    fieldKK w = fieldY w ++ fieldN w ∧ fieldNNN w = fieldX w ++ fieldY w ++ fieldN w

/-- A word decodes to one of the nine undefined rows exactly when it is 8XYN with N in {8,9,A,B,C,D,F}, or EXKK with KK
neither 9E nor A1, or FXKK with KK none of the nine sub-opcodes. (30_encoding.md section 4, 30_encoding.md section
3) -/
def Obligations.UndefinedWordsAreThoseOfTheThreeFamilies : Prop :=
  ∀ w : Word, (decodeWord w).isUndefined = true ↔ UndefinedNumber w.toNat

/-- Twenty words written out bit by bit from the spec's patterns, at least one of each of the sixteen families, decode
to the instructions they stand for. That 01E0 is SYS, 5121 is SE and 912F is SNE rests on the spec's decisions D6
and D7 (log entry 10). (30_encoding.md section 3, 42_load_and_alu.md section 1, 92_eei_decisions.md D6, D7) -/
def Obligations.WrittenOutWordsDecode : Prop :=
  decodeWord 0b0000000011100000 = .cls ∧ decodeWord 0b0000000011101110 = .ret ∧
  decodeWord 0b0000000111100000 = .sys 0x1E0 ∧ decodeWord 0b0001101010111100 = .jp 0xABC ∧
  decodeWord 0b0011001100101010 = .seImm 0x3 0x2A ∧ decodeWord 0b0101000100100001 = .seReg 0x1 0x2 0x1 ∧
  decodeWord 0b1000101010110100 = .addReg 0xA 0xB ∧ decodeWord 0b1000000110100110 = .shr 0x1 0xA ∧
  decodeWord 0b1011001100000000 = .jpV0 0x300 ∧ decodeWord 0b1100001100001111 = .rnd 0x3 0x0F ∧
  decodeWord 0b1101000100100101 = .drw 0x1 0x2 0x5 ∧ decodeWord 0b1110001010100001 = .sknp 0x2 ∧
  decodeWord 0b1111001101010101 = .ldMemVx 0x3 ∧ decodeWord 0b1111001000110000 = .undefFXKK 0x2 0x30 ∧
  decodeWord 0b0010001100000000 = .call 0x300 ∧ decodeWord 0b0100001100101010 = .sneImm 0x3 0x2A ∧
  decodeWord 0b0110101000000101 = .ldImm 0xA 0x05 ∧ decodeWord 0b0111001000000011 = .addImm 0x2 0x03 ∧
  decodeWord 0b1001000100101111 = .sneReg 0x1 0x2 0xF ∧ decodeWord 0b1010001100000000 = .ldI 0x300

/-- The fetched opcode is MemRead(pc)*256 + MemRead(pc+1), the second address being pc + 1 computed exactly and reduced
by the memory port (decision D2 of the spec; log entry 8). (20_memory.md section 4, 92_eei_decisions.md D2) -/
def Obligations.FetchReadsTheWordAtPcBigEndian : Prop :=
  ∀ s : State, s.fetchWord.toNat = (s.memRead s.pc.toNat).toNat * 256 + (s.memRead (s.pc.toNat + 1)).toNat

/-- With a wait pending, step_cycle is the wait poll and never fetches. With none, when the bytes at pc and pc + 1
decode to the instruction i, step_cycle is execute(i) on the state whose pc is advanced by 2 modulo 65536. (R66) -/
def Obligations.StepCyclePollsOrFetchesAdvancesAndExecutes : Prop :=
  ∀ s : State,
    (∀ r, s.wait = some r → stepCycle s = .next (waitPoll r s)) ∧
    (∀ i, s.wait = none → decode [s.memRead s.pc.toNat, s.memRead (s.pc.toNat + 1)] = .ok (i, []) →
      stepCycle s = exec i (s.setPc (s.pc + 2)))

/-- When no wait is pending, the host's next call is step_cycle and the bytes at pc decode to i, the machine's step is
exec i on the state with that call taken from the schedule and pc advanced by 2. That the order of host calls stands
in the state is the model's choice (log entry 2). (30_encoding.md section 2, 60_exceptions.md section 7) -/
def Obligations.StepRunsTheDecodedInstruction : Prop :=
  ∀ (s : State) (i : Instr), s.wait = none → s.cycleNext = true →
    decode [s.memRead s.pc.toNat, s.memRead (s.pc.toNat + 1)] = .ok (i, []) →
    step s = exec i (s.takeCall.setPc (s.pc + 2))

/-- When the host's next call is another operation than step_cycle, the step performs it on the state with that call
taken from the schedule; otherwise the step is step_cycle, a pending wait included. Performing tick_timers, set_key,
clear_dirty, reset, load_rom is that operation, and performing a read leaves the state as it is. The schedule is the
model's choice (log entry 2). (00_scope.md section 5, 60_exceptions.md section 5, 60_exceptions.md section 7,
92_eei_decisions.md D17) -/
def Obligations.StepPerformsTheScheduledCall : Prop :=
  ∀ s : State,
    (∀ o, s.schedule.head = .op o → step s = .next (performHostOp o s.takeCall)) ∧
    (s.cycleNext = true → step s = stepCycle s.takeCall) ∧
    performHostOp .tickTimers s = tickTimers s ∧ (∀ index down, performHostOp (.setKey index down) s = setKey index down s) ∧
    performHostOp .clearDirty s = clearDirty s ∧ performHostOp .reset s = hostReset s ∧
    (∀ image, performHostOp (.loadRom image) s = (loadRom image s).1) ∧ performHostOp .readPorts s = s

/-- Whatever a step does, the schedule after it is the schedule before it less its first call. The calls a schedule
stands for are the listed ones in order, then, for ever, the repeated list over and over, or step_cycle where that
list is empty, or the free sequence from its position on. The schedule is the model's choice (log entry 2).
(60_exceptions.md section 7, 00_scope.md section 5, 92_eei_decisions.md D17) -/
def Obligations.EveryStepTakesOneCallFromTheSchedule : Prop :=
  (∀ s t : State, step s = .next t → t.schedule = s.schedule.rest) ∧
  (∀ (c : Schedule) (n : Nat), n < c.next.length → c.next[n]? = some (c.calls n)) ∧
  (∀ (calls again : List HostCall) (n : Nat), again ≠ [] →
    again[n % again.length]? = some (Schedule.calls ⟨calls, .repeating again⟩ (calls.length + n))) ∧
  (∀ (calls : List HostCall) (n : Nat), Schedule.calls ⟨calls, .repeating []⟩ (calls.length + n) = .stepCycle) ∧
  (∀ (calls : List HostCall) (k n : Nat), Schedule.calls ⟨calls, .free k⟩ (calls.length + n) = Config.hostCall (k + n))

/-- For every instruction and every state exec answers a next state, and so does every step of the machine, the host's
operations among them: the engine raises no exception. (R170) -/
def Obligations.NoInstructionAndNoStepStops : Prop :=
  (∀ (i : Instr) (s : State), ∃ t, exec i s = .next t) ∧ (∀ s : State, ∃ t, step s = .next t)

/-- From every state whose memory is canonical (addresses strictly rising and below 4096, no entry equal to the reset
contents; log entry 1), every step, whichever instruction or host operation it is, leaves memory canonical.
(20_memory.md section 3, 20_memory.md section 1) -/
def Obligations.StepKeepsMemoryCanonical : Prop :=
  ∀ s t : State, s.Inv → step s = .next t → t.Inv

/-- The memory of the reset state is canonical (log entry 1). (10_state.md section 7, 20_memory.md section 2) -/
def Obligations.ResetMemoryIsCanonical : Prop :=
  State.reset.Inv

/-- If two memories are canonical and every address below 4096 reads the same in both, they are equal lists: the
representation (log entry 1) carries nothing but the bytes. (10_state.md section 5, 20_memory.md section 1) -/
def Obligations.CanonicalMemoriesWithEqualBytesAreEqual : Prop :=
  ∀ m n : Memory, Memory.wf m → Memory.wf n → (∀ a, a < 4096 → Memory.read m a = Memory.read n a) → m = n

/-- The components the frames are stated with are all of the state: two states with canonical memories that agree on
each of them are equal. Two of the components (the draw counter and the schedule) are the model's own (log entries
2, 3). (10_state.md section 6) -/
def Obligations.StatesWithEqualComponentsAreEqual : Prop :=
  ∀ s t : State, s.Inv → t.Inv → (∀ c : Component, c.Same s t) → s = t

/-- After MemWrite(a, v), MemRead of an address equal to a modulo 4096 gives v, of any other gives what it gave before,
and nothing but that byte changes. The reduction is the spec's decision D2 (log entry 8). (20_memory.md section 3,
92_eei_decisions.md D2) -/
def Obligations.MemReadAfterMemWrite : Prop :=
  ∀ (s : State) (a q : Nat) (v : Byte),
    (q % 4096 = a % 4096 → (s.memWrite a v).memRead q = v) ∧
    ChangesOnly (fun c => ∃ p, c = .byte p ∧ p % 4096 = a % 4096) s (s.memWrite a v)

/-- After reset() from any state every register, stack entry, key, cell, timer and flag has the value of the spec,
memory holds the font at 0x050 and zero elsewhere; State.reset is such a state. (R200) -/
def Obligations.ResetGivesEveryResetValue : Prop :=
  (∀ s : State, ResetValues (hostReset s)) ∧ ResetValues State.reset

/-- load_rom reports success exactly when the image was readable and has at most 3584 bytes. On failure the state is the
reset state. On success the bytes from 0x200 are the image, all other memory and every other component are as after
reset. That the argument is the outcome of reading the file is the spec's decision D21 (log entry 17). (R203) -/
def Obligations.LoadRomLoadsOrLeavesReset : Prop :=
  ∀ (image : Option (List Byte)) (s : State),
    ((loadRom image s).2 = true ↔ ∃ b, image = some b ∧ b.length ≤ 3584) ∧
    ((loadRom image s).2 = false → (loadRom image s).1 = hostReset s) ∧
    (∀ b, image = some b → b.length ≤ 3584 →
      (∀ n (h : n < b.length), (loadRom image s).1.memRead (0x200 + n) = b[n]) ∧
      ChangesOnly (fun c => ∃ a, c = .byte a ∧ 0x200 ≤ a % 4096 ∧ a % 4096 < 0x200 + b.length) (hostReset s) (loadRom image s).1)

/-- After tick_timers each of DT and ST is one less, or 0 if it was 0, each on its own; every other component, WAIT
included, is unchanged. (R176) -/
def Obligations.TickDecrementsEachTimerDownToZero : Prop :=
  ∀ s : State, (tickTimers s).dt.toNat = s.dt.toNat - 1 ∧ (tickTimers s).st.toNat = s.st.toNat - 1 ∧
    ChangesOnly (fun c => c = .dt ∨ c = .st) s (tickTimers s)

/-- set_key(k, down) for k in 0..15 sets KEY[k] to down and changes nothing else; for any other integer index the state
is unchanged. (R180) -/
def Obligations.SetKeyWritesOneLatchOrNothing : Prop :=
  ∀ (s : State) (down : Bool),
    (∀ k : Reg, (setKey k.toNat down s).getKey k = down ∧ ChangesOnly (fun c => c = .key k) s (setKey k.toNat down s)) ∧
    (∀ index : Int, index < 0 ∨ 16 ≤ index → setKey index down s = s)

/-- After clear_dirty DIRTY is 0 and every other component is unchanged; the engine never clears it: DIRTY set before
any instruction, step_cycle, tick_timers or set_key is set after it. (R183) -/
def Obligations.ClearDirtyClearsOnlyTheDirtyFlag : Prop :=
  (∀ s : State, (clearDirty s).dirty = false ∧ ChangesOnly (fun c => c = .dirty) s (clearDirty s)) ∧
  (∀ (i : Instr) (s t : State), s.dirty = true → exec i s = .next t → t.dirty = true) ∧
  (∀ s t : State, s.dirty = true → stepCycle s = .next t → t.dirty = true) ∧
  (∀ s : State, s.dirty = true → (tickTimers s).dirty = true ∧ ∀ index down, (setKey index down s).dirty = true)

/-- sound_active is true exactly when ST is above 0: after FX18 exactly when V[X] is not 0, after a tick exactly when ST
was above 1, and false after a reset. (R178) -/
def Obligations.SoundActiveFollowsTheSoundTimer : Prop :=
  ∀ s : State,
    (soundActive s = true ↔ s.st.toNat > 0) ∧
    (∀ x, ∃ t, exec (.ldStVx x) s = .next t ∧ (soundActive t = true ↔ (s.getV x).toNat ≠ 0)) ∧
    (soundActive (tickTimers s) = true ↔ s.st.toNat > 1) ∧ soundActive (hostReset s) = false

/-- The display read port gives 2048 bytes; element y*64 + x is 1 if the cell at column x, row y is on and 0 if it is
off. The orientation is the spec's general knowledge, D19 (log entry 12). (60_exceptions.md section 5, 10_state.md
section 4, 92_eei_decisions.md D19) -/
def Obligations.DisplayPortIsRowMajor : Prop :=
  ∀ s : State, (displayPort s).length = 2048 ∧
    ∀ x y, x < 64 → y < 32 → (displayPort s)[y * 64 + x]? = some (if dispGet s.disp x y then 1 else 0)

/-- With no wait pending, if the fetched word is a 0NNN other than 00E0 and 00EE, or an undefined word, step_cycle
answers the state whose pc is 2 more modulo 65536, everything else unchanged. That words such as 01E0 and 0FEE are
SYS is the spec's decision D6 (log entry 10), the wrap of pc is D5 (log entry 8). (30_encoding.md section 4,
40_control_flow.md section 2, 92_eei_decisions.md D5, D6) -/
def Obligations.NoOpWordsOnlyAdvancePc : Prop :=
  ∀ s : State, s.wait = none →
    (s.fetchWord.toNat < 0x1000 ∧ s.fetchWord.toNat ≠ 0x00E0 ∧ s.fetchWord.toNat ≠ 0x00EE) ∨ UndefinedNumber s.fetchWord.toNat →
    stepCycle s = .next (s.setPc (s.pc + 2))

/-- Executing SYS with any NNN, or any of the nine undefined rows with any fields, answers the same state (the fetch has
already advanced pc). (30_encoding.md section 4, 40_control_flow.md section 2) -/
def Obligations.NoOpInstructionsCompleteUnchanged : Prop :=
  ∀ (s : State) (nnn : Addr12) (x y : Reg) (kk : Byte),
    exec (.sys nnn) s = .next s ∧ exec (.undef8XY8 x y) s = .next s ∧ exec (.undef8XY9 x y) s = .next s ∧
    exec (.undef8XYA x y) s = .next s ∧ exec (.undef8XYB x y) s = .next s ∧ exec (.undef8XYC x y) s = .next s ∧
    exec (.undef8XYD x y) s = .next s ∧ exec (.undef8XYF x y) s = .next s ∧ exec (.undefEXKK x kk) s = .next s ∧
    exec (.undefFXKK x kk) s = .next s

/-- JP leaves pc at NNN; JP V0 leaves pc at NNN + V[0], which never wraps; every other component is unchanged. Both
meanings are the spec's general knowledge (D10, D14; log entry 15). (40_control_flow.md section 2,
92_eei_decisions.md D10, D14) -/
def Obligations.JumpsGoToTheirTargets : Prop :=
  ∀ (nnn : Addr12) (s : State),
    (∃ t, exec (.jp nnn) s = .next t ∧ t.pc.toNat = nnn.toNat ∧ ChangesOnly (fun c => c = .pc) s t) ∧
    (∃ t, exec (.jpV0 nnn) s = .next t ∧ t.pc.toNat = nnn.toNat + (s.getV 0).toNat ∧ ChangesOnly (fun c => c = .pc) s t)

/-- CALL leaves STACK[SP] (the old SP) holding the pc it was executed with, SP one more modulo 16, pc at NNN, and every
other component unchanged. The push order and the wrap are the spec's decisions D3, D4 (log entry 9).
(40_control_flow.md section 2, 92_eei_decisions.md D3, D4) -/
def Obligations.CallPushesThePcAndJumps : Prop :=
  ∀ (nnn : Addr12) (s : State), ∃ t, exec (.call nnn) s = .next t ∧ t.getStack s.sp = s.pc ∧
    t.sp.toNat = (s.sp.toNat + 1) % 16 ∧ t.pc.toNat = nnn.toNat ∧
    ChangesOnly (fun c => c = .pc ∨ c = .sp ∨ c = .stackEntry s.sp) s t

/-- RET leaves SP one less modulo 16, pc at STACK of the new SP, and every other component, the stack included,
unchanged. The pop order and the wrap are the spec's decisions D3, D4 (log entry 9). (40_control_flow.md section 2,
92_eei_decisions.md D3, D4) -/
def Obligations.RetPopsThePc : Prop :=
  ∀ s : State, ∃ t, exec .ret s = .next t ∧ t.sp.toNat = (s.sp.toNat + 15) % 16 ∧ t.pc = s.getStack t.sp ∧
    ChangesOnly (fun c => c = .pc ∨ c = .sp) s t

/-- From every state, after n <= 16 calls executed one inside the other, n returns go to their return addresses in
reverse order: depth exactly 16 still unwinds. The stack convention is the spec's decision D3 (log entry 9).
(10_state.md section 4, 40_control_flow.md section 2, 92_eei_decisions.md D3) -/
def Obligations.UpToSixteenNestedCallsReturnCorrectly : Prop :=
  ∀ (calls : List (Word × Addr12)) (s : State), calls.length ≤ 16 →
    ∃ t, nestCalls calls s = .next t ∧ returnAddresses calls.length t = some (calls.map (·.1)).reverse

/-- SE and SNE, against KK or V[Y], add 2 to pc modulo 65536 exactly when the comparison of unsigned values holds (for
every N of 5XYN and 9XYN), and change nothing else. The conditions are the spec's general knowledge (D10; log entry
15); that N is not examined is its decision D7 (log entry 10), the wrap of pc is D5 (log entry 8). (41_skips.md
section 2, 92_eei_decisions.md D5, D7, D10) -/
def Obligations.RegisterSkipsAddTwoWhenTheirConditionHolds : Prop :=
  ∀ (x y : Reg) (kk : Byte) (n : Nibble) (s : State),
    (∃ t, exec (.seImm x kk) s = .next t ∧
      t.pc.toNat = (if (s.getV x).toNat = kk.toNat then (s.pc.toNat + 2) % 65536 else s.pc.toNat) ∧
      ChangesOnly (fun c => c = .pc) s t) ∧
    (∃ t, exec (.sneImm x kk) s = .next t ∧
      t.pc.toNat = (if (s.getV x).toNat ≠ kk.toNat then (s.pc.toNat + 2) % 65536 else s.pc.toNat) ∧
      ChangesOnly (fun c => c = .pc) s t) ∧
    (∃ t, exec (.seReg x y n) s = .next t ∧
      t.pc.toNat = (if (s.getV x).toNat = (s.getV y).toNat then (s.pc.toNat + 2) % 65536 else s.pc.toNat) ∧
      ChangesOnly (fun c => c = .pc) s t) ∧
    (∃ t, exec (.sneReg x y n) s = .next t ∧
      t.pc.toNat = (if (s.getV x).toNat ≠ (s.getV y).toNat then (s.pc.toNat + 2) % 65536 else s.pc.toNat) ∧
      ChangesOnly (fun c => c = .pc) s t)

/-- SKP adds 2 to pc modulo 65536 exactly when KEY[V[X] mod 16] is 1, SKNP exactly when it is 0; neither changes
anything else, keys included. The reduction of the key number is the spec's decision D13 (log entry 13), the wrap of
pc is D5 (log entry 8), the conditions are its general knowledge (D10; log entry 15). (41_skips.md section 2,
92_eei_decisions.md D5, D10, D13) -/
def Obligations.KeySkipsAddTwoOnTheLatchOfTheLowNibble : Prop :=
  ∀ (x : Reg) (s : State),
    (∃ t, exec (.skp x) s = .next t ∧
      t.pc.toNat = (if s.getKey (BitVec.ofNat 4 ((s.getV x).toNat % 16)) = true then (s.pc.toNat + 2) % 65536 else s.pc.toNat) ∧
      ChangesOnly (fun c => c = .pc) s t) ∧
    (∃ t, exec (.sknp x) s = .next t ∧
      t.pc.toNat = (if s.getKey (BitVec.ofNat 4 ((s.getV x).toNat % 16)) = false then (s.pc.toNat + 2) % 65536 else s.pc.toNat) ∧
      ChangesOnly (fun c => c = .pc) s t)

/-- LD VX, KK leaves V[X] equal to KK, VF being the plain destination when X is 15, and every other component unchanged.
(R120) -/
def Obligations.LoadImmediateWritesKK : Prop :=
  ∀ (x : Reg) (kk : Byte) (s : State), ∃ t, exec (.ldImm x kk) s = .next t ∧ t.getV x = kk ∧
    ChangesOnly (fun c => c = .reg x) s t

/-- ADD VX, KK leaves V[X] at the sum modulo 256 and every other register, VF included unless it is V[X], unchanged. The
meaning is the spec's general knowledge (D10; log entry 15). (42_load_and_alu.md section 2, 92_eei_decisions.md D10) -/
def Obligations.AddImmediateWrapsWithoutFlag : Prop :=
  ∀ (x : Reg) (kk : Byte) (s : State), ∃ t, exec (.addImm x kk) s = .next t ∧
    (t.getV x).toNat = ((s.getV x).toNat + kk.toNat) % 256 ∧ ChangesOnly (fun c => c = .reg x) s t

/-- LD, OR, AND, XOR leave V[X] holding V[Y], or the bitwise or, and, exclusive or of V[X] and V[Y], bit by bit; VF is
not written unless it is V[X]. The meanings are the spec's general knowledge and D9 (log entries 11, 15).
(42_load_and_alu.md section 3, 92_eei_decisions.md D9, D10) -/
def Obligations.MoveAndLogicWriteOnlyTheirDestination : Prop :=
  ∀ (x y : Reg) (s : State),
    (∃ t, exec (.ldReg x y) s = .next t ∧ t.getV x = s.getV y ∧ ChangesOnly (fun c => c = .reg x) s t) ∧
    (∃ t, exec (.orReg x y) s = .next t ∧
      (∀ k, (t.getV x).getLsbD k = ((s.getV x).getLsbD k || (s.getV y).getLsbD k)) ∧ ChangesOnly (fun c => c = .reg x) s t) ∧
    (∃ t, exec (.andReg x y) s = .next t ∧
      (∀ k, (t.getV x).getLsbD k = ((s.getV x).getLsbD k && (s.getV y).getLsbD k)) ∧ ChangesOnly (fun c => c = .reg x) s t) ∧
    (∃ t, exec (.xorReg x y) s = .next t ∧
      (∀ k, (t.getV x).getLsbD k = ((s.getV x).getLsbD k ^^ (s.getV y).getLsbD k)) ∧ ChangesOnly (fun c => c = .reg x) s t)

/-- With a, b the old V[X], V[Y] and carry = 1 if a + b > 255 else 0: V[X] ends as (a+b) mod 256 if neither is VF,
(a+carry) mod 256 if only Y is, (carry+b) mod 256 if only X is, 2*carry if both are; VF ends as the carry unless X
is 15; nothing else changes. The two-phase order of 8XY4 is the spec's decision D8 (log entry 11).
(42_load_and_alu.md section 4, 42_load_and_alu.md section 1, 92_eei_decisions.md D8) -/
def Obligations.AddWritesCarryThenTheSumReadAgain : Prop :=
  ∀ (x y : Reg) (s : State), ∃ t, exec (.addReg x y) s = .next t ∧
    (let a := (s.getV x).toNat
     let b := (s.getV y).toNat
     let carry := if a + b > 255 then 1 else 0
     (x ≠ vf → (t.getV vf).toNat = carry) ∧
     (x ≠ vf → y ≠ vf → (t.getV x).toNat = (a + b) % 256) ∧
     (x ≠ vf → y = vf → (t.getV x).toNat = (a + carry) % 256) ∧
     (x = vf → y ≠ vf → (t.getV vf).toNat = (carry + b) % 256) ∧
     (x = vf → y = vf → (t.getV vf).toNat = 2 * carry)) ∧
    ChangesOnly (fun c => c = .reg x ∨ c = .reg vf) s t

/-- With a, b the old V[X], V[Y] and flag = 1 if a > b else 0 (0 when equal): V[X] ends as (a-b) mod 256 if neither is
VF, (a-flag) mod 256 if only Y is, (flag-b) mod 256 if only X is, 0 if both are; VF ends as the flag unless X is 15;
nothing else changes. (R128) -/
def Obligations.SubWritesGreaterThenTheDifferenceReadAgain : Prop :=
  ∀ (x y : Reg) (s : State), ∃ t, exec (.subReg x y) s = .next t ∧
    (let a := (s.getV x).toNat
     let b := (s.getV y).toNat
     let flag := if a > b then 1 else 0
     (x ≠ vf → (t.getV vf).toNat = flag) ∧
     (x ≠ vf → y ≠ vf → (t.getV x).toNat = (a + 256 - b) % 256) ∧
     (x ≠ vf → y = vf → (t.getV x).toNat = (a + 256 - flag) % 256) ∧
     (x = vf → y ≠ vf → (t.getV vf).toNat = (flag + 256 - b) % 256) ∧
     (x = vf → y = vf → (t.getV vf).toNat = 0)) ∧
    ChangesOnly (fun c => c = .reg x ∨ c = .reg vf) s t

/-- With a, b the old V[X], V[Y] and flag = 1 if b > a else 0 (0 when equal): V[X] ends as (b-a) mod 256 if neither is
VF, (flag-a) mod 256 if only Y is, (b-flag) mod 256 if only X is, 0 if both are; VF ends as the flag unless X is 15;
nothing else changes. (R132) -/
def Obligations.SubnWritesGreaterThenTheReversedDifferenceReadAgain : Prop :=
  ∀ (x y : Reg) (s : State), ∃ t, exec (.subnReg x y) s = .next t ∧
    (let a := (s.getV x).toNat
     let b := (s.getV y).toNat
     let flag := if b > a then 1 else 0
     (x ≠ vf → (t.getV vf).toNat = flag) ∧
     (x ≠ vf → y ≠ vf → (t.getV x).toNat = (b + 256 - a) % 256) ∧
     (x ≠ vf → y = vf → (t.getV x).toNat = (flag + 256 - a) % 256) ∧
     (x = vf → y ≠ vf → (t.getV vf).toNat = (b + 256 - flag) % 256) ∧
     (x = vf → y = vf → (t.getV vf).toNat = 0)) ∧
    ChangesOnly (fun c => c = .reg x ∨ c = .reg vf) s t

/-- SHR leaves VF = bit 0 and V[X] = V[X]/2, or VF = 0 when X is 15; SHL leaves VF = bit 7 and V[X] = 2*V[X] mod 256, or
VF = 2*bit 7 when X is 15; nothing else changes, whatever Y is. Which opcode shifts which way is the spec's general
knowledge (D10; log entry 15). (42_load_and_alu.md section 5, 92_eei_decisions.md D10) -/
def Obligations.ShiftsWriteTheLostBitThenShiftVxAlone : Prop :=
  ∀ (x y : Reg) (s : State),
    (∃ t, exec (.shr x y) s = .next t ∧
      (x ≠ vf → (t.getV vf).toNat = (s.getV x).toNat % 2 ∧ (t.getV x).toNat = (s.getV x).toNat / 2) ∧
      (x = vf → (t.getV vf).toNat = 0) ∧ ChangesOnly (fun c => c = .reg x ∨ c = .reg vf) s t) ∧
    (∃ t, exec (.shl x y) s = .next t ∧
      (x ≠ vf → (t.getV vf).toNat = (s.getV x).toNat / 128 ∧ (t.getV x).toNat = 2 * (s.getV x).toNat % 256) ∧
      (x = vf → (t.getV vf).toNat = 2 * ((s.getV x).toNat / 128)) ∧
      ChangesOnly (fun c => c = .reg x ∨ c = .reg vf) s t)

/-- RND leaves V[X] equal to the drawn byte AND KK, so no bit outside KK is set, counts one draw, and changes nothing
else. The byte is the free value Config.randomByte at the draw counter (log entry 3); the AND is the spec's general
knowledge (D15). (42_load_and_alu.md section 6, 92_eei_decisions.md D15) -/
def Obligations.RandomWritesTheDrawnByteAndKK : Prop :=
  ∀ (x : Reg) (kk : Byte) (s : State), ∃ t, exec (.rnd x kk) s = .next t ∧
    t.getV x = Config.randomByte s.draws &&& kk ∧ t.getV x &&& ~~~kk = 0 ∧ t.draws = s.draws + 1 ∧
    ChangesOnly (fun c => c = .reg x ∨ c = .draws) s t

/-- LD I, ADD I and LD F leave I at NNN, at (I + V[X]) mod 65536, at 0x050 + 5*(V[X] mod 16), and every other component,
VF included, unchanged. The meanings are the spec's general knowledge and D11, D12 (log entries 11, 13, 15).
(43_index_and_memory.md section 2, 92_eei_decisions.md D10, D11, D12) -/
def Obligations.IndexInstructionsWriteOnlyI : Prop :=
  ∀ (nnn : Addr12) (x : Reg) (s : State),
    (∃ t, exec (.ldI nnn) s = .next t ∧ t.i.toNat = nnn.toNat ∧ ChangesOnly (fun c => c = .index) s t) ∧
    (∃ t, exec (.addI x) s = .next t ∧ t.i.toNat = (s.i.toNat + (s.getV x).toNat) % 65536 ∧
      ChangesOnly (fun c => c = .index) s t) ∧
    (∃ t, exec (.ldF x) s = .next t ∧ t.i.toNat = 0x050 + 5 * ((s.getV x).toNat % 16) ∧
      ChangesOnly (fun c => c = .index) s t)

/-- If memory has its reset contents, after LD F the five bytes from I are the glyph of the digit V[X] mod 16. The font
bytes are the spec's general knowledge D16 (log entry 14), the reduction is D12 (log entry 13).
(43_index_and_memory.md section 2, 10_state.md section 7, 92_eei_decisions.md D12, D16) -/
def Obligations.FontAddressReadsTheGlyphAfterReset : Prop :=
  ∀ (x : Reg) (s : State), s.mem = [] → ∃ t, exec (.ldF x) s = .next t ∧
    ∀ k, k < 5 → t.memRead (t.i.toNat + k) = (glyphs.getD ((s.getV x).toNat % 16) []).getD k 0

/-- LD B leaves the bytes at I, I+1, I+2 (each reduced modulo 4096) holding the three decimal digits of V[X]; every
other byte and every other component, I and V included, is unchanged. Meaning and address wrap are the spec's D10,
D2 (log entries 8, 15). (43_index_and_memory.md section 3, 92_eei_decisions.md D2, D10) -/
def Obligations.BcdStoresThreeDecimalDigits : Prop :=
  ∀ (x : Reg) (s : State), ∃ t, exec (.ldB x) s = .next t ∧
    (t.memRead (dataAddr s 0)).toNat = (s.getV x).toNat / 100 ∧
    (t.memRead (dataAddr s 1)).toNat = (s.getV x).toNat / 10 % 10 ∧
    (t.memRead (dataAddr s 2)).toNat = (s.getV x).toNat % 10 ∧
    ChangesOnly (fun c => ∃ a k, c = .byte a ∧ k < 3 ∧ a % 4096 = dataAddr s k % 4096) s t

/-- LD [I], VX leaves byte I + k (modulo 4096) holding V[k] for every k up to X, I at (I + X + 1) mod 65536, and every
other byte and every register unchanged. The address and I wraps are the spec's decisions D2, D23 (log entry 8).
(43_index_and_memory.md section 3, 92_eei_decisions.md D2, D23) -/
def Obligations.StoreBlockWritesV0ToVxAndAdvancesI : Prop :=
  ∀ (x : Reg) (s : State), ∃ t, exec (.ldMemVx x) s = .next t ∧
    (∀ k : Reg, k.toNat ≤ x.toNat → t.memRead (dataAddr s k.toNat) = s.getV k) ∧
    t.i.toNat = (s.i.toNat + x.toNat + 1) % 65536 ∧
    ChangesOnly (fun c => c = .index ∨ ∃ a k, c = .byte a ∧ k ≤ x.toNat ∧ a % 4096 = dataAddr s k % 4096) s t

/-- LD VX, [I] leaves V[k] holding byte I + k (modulo 4096) for every k up to X, I at (I + X + 1) mod 65536, and every
register above X and every byte unchanged. The address and I wraps are the spec's decisions D2, D23 (log entry 8).
(43_index_and_memory.md section 3, 92_eei_decisions.md D2, D23) -/
def Obligations.LoadBlockReadsV0ToVxAndAdvancesI : Prop :=
  ∀ (x : Reg) (s : State), ∃ t, exec (.ldVxMem x) s = .next t ∧
    (∀ k : Reg, k.toNat ≤ x.toNat → t.getV k = s.memRead (dataAddr s k.toNat)) ∧
    t.i.toNat = (s.i.toNat + x.toNat + 1) % 65536 ∧
    ChangesOnly (fun c => c = .index ∨ ∃ k : Reg, c = .reg k ∧ k.toNat ≤ x.toNat) s t

/-- If FX55 stores V[k] and V[k+1] to the two bytes at pc (as it stands after the fetch's advance), then in the state it
leaves the fetched word is V[k]*256 + V[k+1]; if FX33 stores two consecutive digits there, it is the first digit
times 256 plus the second: self-modifying code needs no fence. The address reduction is D2 (log entry 8), the digits
of FX33 are D10 (log entry 15). (20_memory.md section 9, 43_index_and_memory.md section 3, 92_eei_decisions.md D2,
D10) -/
def Obligations.StoredBytesAreFetchedByTheNextStep : Prop :=
  (∀ (x j k : Reg) (s : State), k.toNat = j.toNat + 1 → k.toNat ≤ x.toNat →
    s.pc.toNat % 4096 = dataAddr s j.toNat % 4096 →
    ∃ t, exec (.ldMemVx x) s = .next t ∧ t.pc = s.pc ∧
      t.fetchWord.toNat = (s.getV j).toNat * 256 + (s.getV k).toNat) ∧
  (∀ (x : Reg) (s : State), ∃ t, exec (.ldB x) s = .next t ∧ t.pc = s.pc ∧
    (s.pc.toNat % 4096 = dataAddr s 0 % 4096 →
      t.fetchWord.toNat = (s.getV x).toNat / 100 * 256 + (s.getV x).toNat / 10 % 10) ∧
    (s.pc.toNat % 4096 = dataAddr s 1 % 4096 →
      t.fetchWord.toNat = (s.getV x).toNat / 10 % 10 * 256 + (s.getV x).toNat % 10))

/-- CLS leaves every cell of the display 0 and DIRTY 1, also on a clear display, and every other component, VF included,
unchanged. (R150) -/
def Obligations.ClearScreenTurnsEveryCellOff : Prop :=
  ∀ s : State, ∃ t, exec .cls s = .next t ∧ (∀ x y, dispGet t.disp x y = false) ∧ t.dirty = true ∧
    ChangesOnly (fun c => c = .dirty ∨ ∃ x y, c = .cell x y) s t

/-- Of every cell: it is inverted if a set bit of the sprite (N rows from I, bit 7 leftmost, start column V[X] and row
V[Y] as they were, each pixel wrapped modulo 64 and 32) covers it, and unchanged otherwise. VF is 1 if a covered
cell was on and 0 if none was, also when X or Y is 15; DIRTY is 1; nothing else changes. Bit order and operand
latching are the spec's decision D14 (log entry 12). (44_display.md section 1, 44_display.md section 2,
92_eei_decisions.md D14) -/
def Obligations.DrawFlipsTheCoveredCellsAndReportsCollision : Prop :=
  ∀ (x y : Reg) (n : Nibble) (s : State), ∃ t, exec (.drw x y n) s = .next t ∧
    (let Covered := SpriteCovers (fun r => s.memRead (dataAddr s r)) (s.getV x).toNat (s.getV y).toNat n.toNat
     (∀ cx cy, Covered cx cy → dispGet t.disp cx cy = !dispGet s.disp cx cy) ∧
     (∀ cx cy, ¬ Covered cx cy → dispGet t.disp cx cy = dispGet s.disp cx cy) ∧
     ((∃ cx cy, Covered cx cy ∧ dispGet s.disp cx cy = true) → t.getV vf = 1) ∧
     ((∀ cx cy, Covered cx cy → dispGet s.disp cx cy = false) → t.getV vf = 0)) ∧
    t.dirty = true ∧ ChangesOnly (fun c => c = .reg vf ∨ c = .dirty ∨ ∃ cx cy, c = .cell cx cy) s t

/-- For X and Y other than 15, executing the same DXYN twice leaves the display as it was, and the second leaves VF 1
exactly when a covered cell was off before the first. (The corner case in the spec's text says 'if the sprite has at
least one 1 bit'; by its own pseudocode that holds where such a bit lands on a cell that was off: log entry 23.)
(44_display.md section 2, 92_eei_decisions.md D14) -/
def Obligations.DrawingTwiceRestoresTheDisplay : Prop :=
  ∀ (x y : Reg) (n : Nibble) (s : State), x ≠ vf → y ≠ vf →
    ∃ t u, exec (.drw x y n) s = .next t ∧ exec (.drw x y n) t = .next u ∧
      (∀ cx cy, dispGet u.disp cx cy = dispGet s.disp cx cy) ∧
      (u.getV vf = 1 ↔ ∃ cx cy,
        SpriteCovers (fun r => s.memRead (dataAddr s r)) (s.getV x).toNat (s.getV y).toNat n.toNat cx cy ∧
        dispGet s.disp cx cy = false)

/-- LD VX, DT leaves V[X] = DT; LD DT, VX leaves DT = V[X]; LD ST, VX leaves ST = V[X]; each changes nothing else. The
meanings are the spec's general knowledge (D10; log entry 15). (45_timers_and_keys.md section 1, 92_eei_decisions.md
D10) -/
def Obligations.TimerInstructionsMoveOneByte : Prop :=
  ∀ (x : Reg) (s : State),
    (∃ t, exec (.ldVxDt x) s = .next t ∧ t.getV x = s.dt ∧ ChangesOnly (fun c => c = .reg x) s t) ∧
    (∃ t, exec (.ldDtVx x) s = .next t ∧ t.dt = s.getV x ∧ ChangesOnly (fun c => c = .dt) s t) ∧
    (∃ t, exec (.ldStVx x) s = .next t ∧ t.st = s.getV x ∧ ChangesOnly (fun c => c = .st) s t)

/-- LD VX, K leaves WAIT = some(X), whichever keys are down, and changes nothing else: no register is written and no key
is examined in this step. (R163) -/
def Obligations.WaitForKeyOnlyArmsTheWait : Prop :=
  ∀ (x : Reg) (s : State), ∃ t, exec (.ldVxK x) s = .next t ∧ t.wait = some x ∧
    ChangesOnly (fun c => c = .wait) s t

/-- With WAIT = some(r): if no key is down, step_cycle changes nothing. If k is the lowest key that is down, step_cycle
leaves V[r] = k and WAIT = none and changes nothing else, pc and the key latches included: it executes no
instruction. That the poll looks at levels and that the delivering call executes nothing are the spec's decision D18
with its conflict C2 (log entry 16). (45_timers_and_keys.md section 2, 90_conflicts.md C2, 92_eei_decisions.md D18) -/
def Obligations.WaitPollTakesTheLowestPressedKey : Prop :=
  ∀ (r : Reg) (s : State), s.wait = some r →
    ((∀ k, s.getKey k = false) → stepCycle s = .next s) ∧
    (∀ k : Reg, s.getKey k = true → (∀ j : Reg, j.toNat < k.toNat → s.getKey j = false) →
      ∃ t, stepCycle s = .next t ∧ (t.getV r).toNat = k.toNat ∧ t.wait = none ∧
        ChangesOnly (fun c => c = .reg r ∨ c = .wait) s t)

/-- After a step_cycle from RUNNING the engine waits exactly if the word was an FX0A; from AWAITING_KEY it still waits
exactly if no key was down. tick_timers, set_key, clear_dirty and reads leave WAIT unchanged; reset and load_rom end
it. The poll of levels is the spec's decision D18 (log entry 16). (60_exceptions.md section 6, 10_state.md section
4, 92_eei_decisions.md D18) -/
def Obligations.WaitStateMovesOnlyAsTheStateMachineSays : Prop :=
  (∀ s t : State, stepCycle s = .next t →
    (s.awaitingKey = false → (t.awaitingKey = true ↔ ∃ x, decodeWord s.fetchWord = .ldVxK x)) ∧
    (s.awaitingKey = true → (t.awaitingKey = true ↔ ∀ k, s.getKey k = false))) ∧
  (∀ s : State, (tickTimers s).wait = s.wait ∧ (∀ index down, (setKey index down s).wait = s.wait) ∧
    (clearDirty s).wait = s.wait ∧ (performHostOp .readPorts s).wait = s.wait ∧
    (hostReset s).awaitingKey = false ∧ (∀ image, (loadRom image s).1.awaitingKey = false))

/-- Of all 44 rows: memory bytes change only under FX33 and FX55, display cells and DIRTY only under 00E0 and DXYN,
stack entries only under 2NNN, and key latches under none. (The schedule, the model's own field of log entry 2,
changes under none either.) (20_memory.md section 10, 10_state.md section 4, 10_state.md section 5) -/
def Obligations.OnlyTheNamedInstructionsWriteEachArray : Prop :=
  ∀ (i : Instr) (s t : State), exec i s = .next t →
    ((∀ x, i ≠ .ldB x) → (∀ x, i ≠ .ldMemVx x) → ∀ a, t.memRead a = s.memRead a) ∧
    (i ≠ .cls → (∀ x y n, i ≠ .drw x y n) → t.disp = s.disp ∧ t.dirty = s.dirty) ∧
    ((∀ nnn, i ≠ .call nnn) → ∀ j, t.getStack j = s.getStack j) ∧
    (∀ k, t.getKey k = s.getKey k) ∧ t.schedule = s.schedule

/-- Of all 44 rows: pc (beyond the fetch's advance) changes only under 00EE, 1NNN, 2NNN, BNNN and the six skips; I only
under ANNN, FX1E, FX29, FX55, FX65; SP only under 2NNN and 00EE; DT only under FX15; ST only under FX18; WAIT only
under FX0A; and one random byte is drawn by CXKK and none by any other (the counter is the model's, log entry 3).
(10_state.md section 2, 10_state.md section 4, 45_timers_and_keys.md section 2) -/
def Obligations.OnlyTheNamedInstructionsWriteEachRegister : Prop :=
  ∀ (i : Instr) (s t : State), exec i s = .next t →
    (writesPc i = false → t.pc = s.pc) ∧ (writesIndex i = false → t.i = s.i) ∧
    ((∀ nnn, i ≠ .call nnn) → i ≠ .ret → t.sp = s.sp) ∧
    ((∀ x, i ≠ .ldDtVx x) → t.dt = s.dt) ∧ ((∀ x, i ≠ .ldStVx x) → t.st = s.st) ∧
    ((∀ x, i ≠ .ldVxK x) → t.wait = s.wait) ∧
    (t.draws = s.draws + 1 ∧ (∃ x kk, i = .rnd x kk) ∨ t.draws = s.draws ∧ ∀ x kk, i ≠ .rnd x kk)

/-- Of all 44 rows: a register changes only if it is the row's V[X] destination, one of V0..VX under FX65, or VF under
8XY4, 8XY5, 8XY6, 8XY7, 8XYE and DXYN. That no other instruction writes VF as a flag is the spec's D9, D11 (log
entry 11). (10_state.md section 1, 92_eei_decisions.md D9, D11) -/
def Obligations.GeneralRegistersChangeOnlyAsNamed : Prop :=
  ∀ (i : Instr) (s t : State) (r : Reg), exec i s = .next t → ¬ mayWriteReg i r → t.getV r = s.getV r

/-- Executing an instruction from two states that differ only in ST, DIRTY and the schedule (the model's own, log entry
2) leaves states that differ only in those: no instruction reads ST or DIRTY. (10_state.md section 4,
60_exceptions.md section 4) -/
def Obligations.NoInstructionReadsSoundTimerDirtyOrSchedule : Prop :=
  ∀ (i : Instr) (s t : State) (b : Byte) (d : Bool) (l : Schedule), exec i s = .next t →
    ∃ u, exec i (((s.setSt b).setDirty d).setSchedule l) = .next u ∧
      ChangesOnly (fun c => c = .st ∨ c = .dirty ∨ c = .schedule) t u

/-- In a state that is ended by the definition the spec offers (a 1NNN to its own address, below 0x1000, no wait
pending; decision D24, log entry 21), step_cycle answers the same state. (70_reset_and_hazards.md section 5,
92_eei_decisions.md D24) -/
def Obligations.EndedStateIsAFixedPointOfStepCycle : Prop :=
  ∀ s : State, s.ended → stepCycle s = .next s

/-- For every infinite sequence of host calls and every start state there is a run of the engine under it, and only one.
The run of the machine's own step from a state is, in every component but the schedule, its run under the calls that
the state's schedule stands for. The schedule is the model's choice (log entry 2). (60_exceptions.md section 7,
00_scope.md section 5, 92_eei_decisions.md D17) -/
def Obligations.EveryOrderOfHostCallsIsARun : Prop :=
  (∀ (calls : Nat → HostCall) (s : State), ∃ run, run 0 = s ∧ HostRun calls run ∧
    ∀ other, other 0 = s → HostRun calls other → other = run) ∧
  (∀ (s : State) (run own : Nat → State), run 0 = s → HostRun s.schedule.calls run → own 0 = s → StepRun own →
    ∀ n, ChangesOnly (fun c => c = .schedule) (run n) (own n))

/-- The DIRTY port is DIRTY; the key port has sixteen elements, element k being KEY[k]; after the host's read call every
component of the state is as before. (The display and sound ports have statements of their own.) (60_exceptions.md
section 5, 10_state.md section 4) -/
def Obligations.ReadPortsShowTheStateAndChangeNothing : Prop :=
  ∀ s : State, dirtyPort s = s.dirty ∧ (keyPort s).length = 16 ∧
    (∀ k : Reg, (keyPort s)[k.toNat]? = some (s.getKey k)) ∧ ChangesOnly (fun _ => False) s (performHostOp .readPorts s)
end

