-- ==== Sys2Proof/Laws/Display.lean ====
section
/-! SUPPORT. The display and the sprite unit: what one flip, one row and a whole sprite do to every cell and to the collision. -/

namespace Sys2Proof.Machine

@[simp] theorem dispGet_dispClear (x y : Nat) : dispGet dispClear x y = false := by simp [dispGet, dispClear]

/-- A flip inverts one cell and leaves every other one. -/
theorem dispGet_dispFlip (d : Display) (x y x' y' : Nat) :
    dispGet (dispFlip d x y) x' y' = (dispGet d x' y' ^^ decide (x % 64 = x' % 64 ∧ y % 32 = y' % 32)) := by
  simp only [dispGet, dispFlip, Vector.getElem_set]
  by_cases hy : y % 32 = y' % 32
  · by_cases hx : x % 64 = x' % 64
    · simp [hx, hy]
    · simp [hx, hy]
  · simp [hy]

/-- A display is its cells. -/
theorem disp_ext {d e : Display} (h : ∀ x < 64, ∀ y < 32, dispGet d x y = dispGet e x y) : d = e := by
  refine Vector.ext fun y hy => Vector.ext fun x hx => ?_
  have := h x hx y hy
  simpa [dispGet, Nat.mod_eq_of_lt hy, Nat.mod_eq_of_lt hx] using this

/-- The first `n` pixels of a row, as a condition on a cell. -/
def RowCovers (b : Byte) (x0 n x : Nat) : Prop := ∃ c, c < n ∧ b.getLsbD (7 - c) = true ∧ (x0 + c) % 64 = x % 64

theorem rowCovers_succ {b : Byte} {x0 n x : Nat} :
    RowCovers b x0 (n + 1) x ↔ RowCovers b x0 n x ∨ (b.getLsbD (7 - n) = true ∧ (x0 + n) % 64 = x % 64) := by
  unfold RowCovers
  constructor
  · rintro ⟨c, hc, h⟩
    rcases Nat.lt_succ_iff_lt_or_eq.1 hc with hc | rfl
    · exact .inl ⟨c, hc, h⟩
    · exact .inr h
  · rintro (⟨c, hc, h⟩ | h)
    · exact ⟨c, by omega, h⟩
    · exact ⟨n, by omega, h⟩

open Classical in
/-- The first `n ≤ 8` pixels of a row: every covered cell of the row is flipped once, and a covered lit cell collides. -/
theorem drawRow_spec (b : Byte) (x0 y0 n : Nat) (hn : n ≤ 8) (c : Canvas) :
    (∀ x y, dispGet (drawRow b x0 y0 n c).1 x y =
      (dispGet c.1 x y ^^ decide (RowCovers b x0 n x ∧ y0 % 32 = y % 32))) ∧
    ((drawRow b x0 y0 n c).2 = true ↔ c.2 = true ∨ ∃ x, RowCovers b x0 n x ∧ dispGet c.1 x y0 = true) := by
  induction n with
  | zero => simp [drawRow, RowCovers]
  | succ n ih =>
    obtain ⟨ih1, ih2⟩ := ih (by omega)
    have fresh : ¬ RowCovers b x0 n (x0 + n) := by
      rintro ⟨k, hk, -, h⟩; omega
    have hmod : ∀ x, (x0 + n) % 64 = x % 64 → dispGet c.1 x y0 = dispGet c.1 (x0 + n) y0 := by
      intro x h; simp only [dispGet, h]
    by_cases hb : b.getLsbD (7 - n) = true
    · constructor
      · intro x y
        simp only [drawRow, drawPixel, hb, if_true, dispGet_dispFlip, ih1, Bool.xor_assoc]
        congr 1
        rw [rowCovers_succ]
        by_cases hx : (x0 + n) % 64 = x % 64
        · have hno : ¬ RowCovers b x0 n x := by
            rintro ⟨k, hk, -, h⟩; omega
          simp [hx, hno, hb]
        · simp [hx]
      · simp only [drawRow, drawPixel, hb, if_true, Bool.or_eq_true, ih2, ih1]
        simp only [fresh, false_and, decide_false, Bool.xor_false]
        constructor
        · rintro ((h | ⟨x, h1, h2⟩) | h)
          · exact .inl h
          · exact .inr ⟨x, rowCovers_succ.2 (.inl h1), h2⟩
          · exact .inr ⟨x0 + n, rowCovers_succ.2 (.inr ⟨hb, rfl⟩), h⟩
        · rintro (h | ⟨x, h1, h2⟩)
          · exact .inl (.inl h)
          · rcases rowCovers_succ.1 h1 with h1 | ⟨-, h1⟩
            · exact .inl (.inr ⟨x, h1, h2⟩)
            · exact .inr (hmod x h1 ▸ h2)
    · have hiff : ∀ x, RowCovers b x0 (n + 1) x ↔ RowCovers b x0 n x := fun x => by simp [rowCovers_succ, hb]
      simp only [drawRow, drawPixel, hb, Bool.false_eq_true, if_false, hiff]
      exact ⟨ih1, ih2⟩

open Classical in
/-- A sprite of at most 32 rows: every covered cell is flipped once, and a covered lit cell collides (44_display.md R152, R153). -/
theorem drawRows_spec (rows : Nat → Byte) (x0 y0 n : Nat) (hn : n ≤ 32) (c : Canvas) :
    (∀ x y, dispGet (drawRows rows x0 y0 n c).1 x y = (dispGet c.1 x y ^^ decide (SpriteCovers rows x0 y0 n x y))) ∧
    ((drawRows rows x0 y0 n c).2 = true ↔
      c.2 = true ∨ ∃ x y, SpriteCovers rows x0 y0 n x y ∧ dispGet c.1 x y = true) := by
  induction n with
  | zero => simp [drawRows, SpriteCovers]
  | succ n ih =>
    obtain ⟨ih1, ih2⟩ := ih (by omega)
    obtain ⟨r1, r2⟩ := drawRow_spec (rows n) x0 (y0 + n) 8 (by omega) (drawRows rows x0 y0 n c)
    have hsucc : ∀ x y, SpriteCovers rows x0 y0 (n + 1) x y ↔
        SpriteCovers rows x0 y0 n x y ∨ (RowCovers (rows n) x0 8 x ∧ (y0 + n) % 32 = y % 32) := by
      intro x y
      unfold SpriteCovers RowCovers
      constructor
      · rintro ⟨r, hr, k, hk, hb, hx, hy⟩
        rcases Nat.lt_succ_iff_lt_or_eq.1 hr with hr | rfl
        · exact .inl ⟨r, hr, k, hk, hb, hx, hy⟩
        · exact .inr ⟨⟨k, hk, hb, hx⟩, hy⟩
      · rintro (⟨r, hr, h⟩ | ⟨⟨k, hk, hb, hx⟩, hy⟩)
        · exact ⟨r, by omega, h⟩
        · exact ⟨n, by omega, k, hk, hb, hx, hy⟩
    have fresh : ∀ x y, (y0 + n) % 32 = y % 32 → ¬ SpriteCovers rows x0 y0 n x y := by
      rintro x y h ⟨r, hr, k, -, -, -, hy⟩; omega
    constructor
    · intro x y
      rw [drawRows, r1, ih1, Bool.xor_assoc]
      congr 1
      by_cases hy : (y0 + n) % 32 = y % 32
      · simp [hsucc, hy, fresh x y hy]
      · simp [hsucc, hy]
    · rw [drawRows, r2, ih2]
      simp only [ih1, fresh _ _ rfl, decide_false, Bool.xor_false]
      constructor
      · rintro ((h | ⟨x, y, h1, h2⟩) | ⟨x, h1, h2⟩)
        · exact .inl h
        · exact .inr ⟨x, y, (hsucc x y).2 (.inl h1), h2⟩
        · exact .inr ⟨x, y0 + n, (hsucc _ _).2 (.inr ⟨h1, rfl⟩), h2⟩
      · rintro (h | ⟨x, y, h1, h2⟩)
        · exact .inl (.inl h)
        · rcases (hsucc x y).1 h1 with h1 | ⟨h1, hy⟩
          · exact .inl (.inr ⟨x, y, h1, h2⟩)
          · refine .inr ⟨x, h1, ?_⟩
            have : dispGet c.1 x (y0 + n) = dispGet c.1 x y := by simp only [dispGet, hy]
            rw [this]; exact h2

end Sys2Proof.Machine
end

