-- ==== Sys2Proof/Laws/State.lean ====
section
/-! SUPPORT. What each write of State does to each field and to each read: one lemma per pair. -/

namespace Sys2Proof.Machine.State

/-! ### setV -/

@[simp] theorem setV_v (s : State) (r : Reg) (b : Byte) : (s.setV r b).v = s.v.set r.toNat b r.isLt := rfl
@[simp] theorem setV_i (s : State) (r : Reg) (b : Byte) : (s.setV r b).i = s.i := rfl
@[simp] theorem setV_pc (s : State) (r : Reg) (b : Byte) : (s.setV r b).pc = s.pc := rfl
@[simp] theorem setV_sp (s : State) (r : Reg) (b : Byte) : (s.setV r b).sp = s.sp := rfl
@[simp] theorem setV_stack (s : State) (r : Reg) (b : Byte) : (s.setV r b).stack = s.stack := rfl
@[simp] theorem setV_dt (s : State) (r : Reg) (b : Byte) : (s.setV r b).dt = s.dt := rfl
@[simp] theorem setV_st (s : State) (r : Reg) (b : Byte) : (s.setV r b).st = s.st := rfl
@[simp] theorem setV_key (s : State) (r : Reg) (b : Byte) : (s.setV r b).key = s.key := rfl
@[simp] theorem setV_disp (s : State) (r : Reg) (b : Byte) : (s.setV r b).disp = s.disp := rfl
@[simp] theorem setV_dirty (s : State) (r : Reg) (b : Byte) : (s.setV r b).dirty = s.dirty := rfl
@[simp] theorem setV_wait (s : State) (r : Reg) (b : Byte) : (s.setV r b).wait = s.wait := rfl
@[simp] theorem setV_mem (s : State) (r : Reg) (b : Byte) : (s.setV r b).mem = s.mem := rfl
@[simp] theorem setV_draws (s : State) (r : Reg) (b : Byte) : (s.setV r b).draws = s.draws := rfl
@[simp] theorem setV_schedule (s : State) (r : Reg) (b : Byte) : (s.setV r b).schedule = s.schedule := rfl
@[simp] theorem getStack_setV (s : State) (r : Reg) (b : Byte) (q : Reg) : (s.setV r b).getStack q = s.getStack q := rfl
@[simp] theorem getKey_setV (s : State) (r : Reg) (b : Byte) (q : Reg) : (s.setV r b).getKey q = s.getKey q := rfl
@[simp] theorem memRead_setV (s : State) (r : Reg) (b : Byte) (q : Nat) : (s.setV r b).memRead q = s.memRead q := rfl

/-! ### setI -/

@[simp] theorem setI_v (s : State) (w : Word) : (s.setI w).v = s.v := rfl
@[simp] theorem setI_i (s : State) (w : Word) : (s.setI w).i = w := rfl
@[simp] theorem setI_pc (s : State) (w : Word) : (s.setI w).pc = s.pc := rfl
@[simp] theorem setI_sp (s : State) (w : Word) : (s.setI w).sp = s.sp := rfl
@[simp] theorem setI_stack (s : State) (w : Word) : (s.setI w).stack = s.stack := rfl
@[simp] theorem setI_dt (s : State) (w : Word) : (s.setI w).dt = s.dt := rfl
@[simp] theorem setI_st (s : State) (w : Word) : (s.setI w).st = s.st := rfl
@[simp] theorem setI_key (s : State) (w : Word) : (s.setI w).key = s.key := rfl
@[simp] theorem setI_disp (s : State) (w : Word) : (s.setI w).disp = s.disp := rfl
@[simp] theorem setI_dirty (s : State) (w : Word) : (s.setI w).dirty = s.dirty := rfl
@[simp] theorem setI_wait (s : State) (w : Word) : (s.setI w).wait = s.wait := rfl
@[simp] theorem setI_mem (s : State) (w : Word) : (s.setI w).mem = s.mem := rfl
@[simp] theorem setI_draws (s : State) (w : Word) : (s.setI w).draws = s.draws := rfl
@[simp] theorem setI_schedule (s : State) (w : Word) : (s.setI w).schedule = s.schedule := rfl
@[simp] theorem getV_setI (s : State) (w : Word) (q : Reg) : (s.setI w).getV q = s.getV q := rfl
@[simp] theorem getStack_setI (s : State) (w : Word) (q : Reg) : (s.setI w).getStack q = s.getStack q := rfl
@[simp] theorem getKey_setI (s : State) (w : Word) (q : Reg) : (s.setI w).getKey q = s.getKey q := rfl
@[simp] theorem memRead_setI (s : State) (w : Word) (q : Nat) : (s.setI w).memRead q = s.memRead q := rfl

/-! ### setPc -/

@[simp] theorem setPc_v (s : State) (w : Word) : (s.setPc w).v = s.v := rfl
@[simp] theorem setPc_i (s : State) (w : Word) : (s.setPc w).i = s.i := rfl
@[simp] theorem setPc_pc (s : State) (w : Word) : (s.setPc w).pc = w := rfl
@[simp] theorem setPc_sp (s : State) (w : Word) : (s.setPc w).sp = s.sp := rfl
@[simp] theorem setPc_stack (s : State) (w : Word) : (s.setPc w).stack = s.stack := rfl
@[simp] theorem setPc_dt (s : State) (w : Word) : (s.setPc w).dt = s.dt := rfl
@[simp] theorem setPc_st (s : State) (w : Word) : (s.setPc w).st = s.st := rfl
@[simp] theorem setPc_key (s : State) (w : Word) : (s.setPc w).key = s.key := rfl
@[simp] theorem setPc_disp (s : State) (w : Word) : (s.setPc w).disp = s.disp := rfl
@[simp] theorem setPc_dirty (s : State) (w : Word) : (s.setPc w).dirty = s.dirty := rfl
@[simp] theorem setPc_wait (s : State) (w : Word) : (s.setPc w).wait = s.wait := rfl
@[simp] theorem setPc_mem (s : State) (w : Word) : (s.setPc w).mem = s.mem := rfl
@[simp] theorem setPc_draws (s : State) (w : Word) : (s.setPc w).draws = s.draws := rfl
@[simp] theorem setPc_schedule (s : State) (w : Word) : (s.setPc w).schedule = s.schedule := rfl
@[simp] theorem getV_setPc (s : State) (w : Word) (q : Reg) : (s.setPc w).getV q = s.getV q := rfl
@[simp] theorem getStack_setPc (s : State) (w : Word) (q : Reg) : (s.setPc w).getStack q = s.getStack q := rfl
@[simp] theorem getKey_setPc (s : State) (w : Word) (q : Reg) : (s.setPc w).getKey q = s.getKey q := rfl
@[simp] theorem memRead_setPc (s : State) (w : Word) (q : Nat) : (s.setPc w).memRead q = s.memRead q := rfl

/-! ### setSp -/

@[simp] theorem setSp_v (s : State) (j : Reg) : (s.setSp j).v = s.v := rfl
@[simp] theorem setSp_i (s : State) (j : Reg) : (s.setSp j).i = s.i := rfl
@[simp] theorem setSp_pc (s : State) (j : Reg) : (s.setSp j).pc = s.pc := rfl
@[simp] theorem setSp_sp (s : State) (j : Reg) : (s.setSp j).sp = j := rfl
@[simp] theorem setSp_stack (s : State) (j : Reg) : (s.setSp j).stack = s.stack := rfl
@[simp] theorem setSp_dt (s : State) (j : Reg) : (s.setSp j).dt = s.dt := rfl
@[simp] theorem setSp_st (s : State) (j : Reg) : (s.setSp j).st = s.st := rfl
@[simp] theorem setSp_key (s : State) (j : Reg) : (s.setSp j).key = s.key := rfl
@[simp] theorem setSp_disp (s : State) (j : Reg) : (s.setSp j).disp = s.disp := rfl
@[simp] theorem setSp_dirty (s : State) (j : Reg) : (s.setSp j).dirty = s.dirty := rfl
@[simp] theorem setSp_wait (s : State) (j : Reg) : (s.setSp j).wait = s.wait := rfl
@[simp] theorem setSp_mem (s : State) (j : Reg) : (s.setSp j).mem = s.mem := rfl
@[simp] theorem setSp_draws (s : State) (j : Reg) : (s.setSp j).draws = s.draws := rfl
@[simp] theorem setSp_schedule (s : State) (j : Reg) : (s.setSp j).schedule = s.schedule := rfl
@[simp] theorem getV_setSp (s : State) (j : Reg) (q : Reg) : (s.setSp j).getV q = s.getV q := rfl
@[simp] theorem getStack_setSp (s : State) (j : Reg) (q : Reg) : (s.setSp j).getStack q = s.getStack q := rfl
@[simp] theorem getKey_setSp (s : State) (j : Reg) (q : Reg) : (s.setSp j).getKey q = s.getKey q := rfl
@[simp] theorem memRead_setSp (s : State) (j : Reg) (q : Nat) : (s.setSp j).memRead q = s.memRead q := rfl

/-! ### setStack -/

@[simp] theorem setStack_v (s : State) (j : Reg) (w : Word) : (s.setStack j w).v = s.v := rfl
@[simp] theorem setStack_i (s : State) (j : Reg) (w : Word) : (s.setStack j w).i = s.i := rfl
@[simp] theorem setStack_pc (s : State) (j : Reg) (w : Word) : (s.setStack j w).pc = s.pc := rfl
@[simp] theorem setStack_sp (s : State) (j : Reg) (w : Word) : (s.setStack j w).sp = s.sp := rfl
@[simp] theorem setStack_stack (s : State) (j : Reg) (w : Word) : (s.setStack j w).stack = s.stack.set j.toNat w j.isLt := rfl
@[simp] theorem setStack_dt (s : State) (j : Reg) (w : Word) : (s.setStack j w).dt = s.dt := rfl
@[simp] theorem setStack_st (s : State) (j : Reg) (w : Word) : (s.setStack j w).st = s.st := rfl
@[simp] theorem setStack_key (s : State) (j : Reg) (w : Word) : (s.setStack j w).key = s.key := rfl
@[simp] theorem setStack_disp (s : State) (j : Reg) (w : Word) : (s.setStack j w).disp = s.disp := rfl
@[simp] theorem setStack_dirty (s : State) (j : Reg) (w : Word) : (s.setStack j w).dirty = s.dirty := rfl
@[simp] theorem setStack_wait (s : State) (j : Reg) (w : Word) : (s.setStack j w).wait = s.wait := rfl
@[simp] theorem setStack_mem (s : State) (j : Reg) (w : Word) : (s.setStack j w).mem = s.mem := rfl
@[simp] theorem setStack_draws (s : State) (j : Reg) (w : Word) : (s.setStack j w).draws = s.draws := rfl
@[simp] theorem setStack_schedule (s : State) (j : Reg) (w : Word) : (s.setStack j w).schedule = s.schedule := rfl
@[simp] theorem getV_setStack (s : State) (j : Reg) (w : Word) (q : Reg) : (s.setStack j w).getV q = s.getV q := rfl
@[simp] theorem getKey_setStack (s : State) (j : Reg) (w : Word) (q : Reg) : (s.setStack j w).getKey q = s.getKey q := rfl
@[simp] theorem memRead_setStack (s : State) (j : Reg) (w : Word) (q : Nat) : (s.setStack j w).memRead q = s.memRead q := rfl

/-! ### setDt -/

@[simp] theorem setDt_v (s : State) (b : Byte) : (s.setDt b).v = s.v := rfl
@[simp] theorem setDt_i (s : State) (b : Byte) : (s.setDt b).i = s.i := rfl
@[simp] theorem setDt_pc (s : State) (b : Byte) : (s.setDt b).pc = s.pc := rfl
@[simp] theorem setDt_sp (s : State) (b : Byte) : (s.setDt b).sp = s.sp := rfl
@[simp] theorem setDt_stack (s : State) (b : Byte) : (s.setDt b).stack = s.stack := rfl
@[simp] theorem setDt_dt (s : State) (b : Byte) : (s.setDt b).dt = b := rfl
@[simp] theorem setDt_st (s : State) (b : Byte) : (s.setDt b).st = s.st := rfl
@[simp] theorem setDt_key (s : State) (b : Byte) : (s.setDt b).key = s.key := rfl
@[simp] theorem setDt_disp (s : State) (b : Byte) : (s.setDt b).disp = s.disp := rfl
@[simp] theorem setDt_dirty (s : State) (b : Byte) : (s.setDt b).dirty = s.dirty := rfl
@[simp] theorem setDt_wait (s : State) (b : Byte) : (s.setDt b).wait = s.wait := rfl
@[simp] theorem setDt_mem (s : State) (b : Byte) : (s.setDt b).mem = s.mem := rfl
@[simp] theorem setDt_draws (s : State) (b : Byte) : (s.setDt b).draws = s.draws := rfl
@[simp] theorem setDt_schedule (s : State) (b : Byte) : (s.setDt b).schedule = s.schedule := rfl
@[simp] theorem getV_setDt (s : State) (b : Byte) (q : Reg) : (s.setDt b).getV q = s.getV q := rfl
@[simp] theorem getStack_setDt (s : State) (b : Byte) (q : Reg) : (s.setDt b).getStack q = s.getStack q := rfl
@[simp] theorem getKey_setDt (s : State) (b : Byte) (q : Reg) : (s.setDt b).getKey q = s.getKey q := rfl
@[simp] theorem memRead_setDt (s : State) (b : Byte) (q : Nat) : (s.setDt b).memRead q = s.memRead q := rfl

/-! ### setSt -/

@[simp] theorem setSt_v (s : State) (b : Byte) : (s.setSt b).v = s.v := rfl
@[simp] theorem setSt_i (s : State) (b : Byte) : (s.setSt b).i = s.i := rfl
@[simp] theorem setSt_pc (s : State) (b : Byte) : (s.setSt b).pc = s.pc := rfl
@[simp] theorem setSt_sp (s : State) (b : Byte) : (s.setSt b).sp = s.sp := rfl
@[simp] theorem setSt_stack (s : State) (b : Byte) : (s.setSt b).stack = s.stack := rfl
@[simp] theorem setSt_dt (s : State) (b : Byte) : (s.setSt b).dt = s.dt := rfl
@[simp] theorem setSt_st (s : State) (b : Byte) : (s.setSt b).st = b := rfl
@[simp] theorem setSt_key (s : State) (b : Byte) : (s.setSt b).key = s.key := rfl
@[simp] theorem setSt_disp (s : State) (b : Byte) : (s.setSt b).disp = s.disp := rfl
@[simp] theorem setSt_dirty (s : State) (b : Byte) : (s.setSt b).dirty = s.dirty := rfl
@[simp] theorem setSt_wait (s : State) (b : Byte) : (s.setSt b).wait = s.wait := rfl
@[simp] theorem setSt_mem (s : State) (b : Byte) : (s.setSt b).mem = s.mem := rfl
@[simp] theorem setSt_draws (s : State) (b : Byte) : (s.setSt b).draws = s.draws := rfl
@[simp] theorem setSt_schedule (s : State) (b : Byte) : (s.setSt b).schedule = s.schedule := rfl
@[simp] theorem getV_setSt (s : State) (b : Byte) (q : Reg) : (s.setSt b).getV q = s.getV q := rfl
@[simp] theorem getStack_setSt (s : State) (b : Byte) (q : Reg) : (s.setSt b).getStack q = s.getStack q := rfl
@[simp] theorem getKey_setSt (s : State) (b : Byte) (q : Reg) : (s.setSt b).getKey q = s.getKey q := rfl
@[simp] theorem memRead_setSt (s : State) (b : Byte) (q : Nat) : (s.setSt b).memRead q = s.memRead q := rfl

/-! ### setKeyLatch -/

@[simp] theorem setKeyLatch_v (s : State) (k : Reg) (b : Bool) : (s.setKeyLatch k b).v = s.v := rfl
@[simp] theorem setKeyLatch_i (s : State) (k : Reg) (b : Bool) : (s.setKeyLatch k b).i = s.i := rfl
@[simp] theorem setKeyLatch_pc (s : State) (k : Reg) (b : Bool) : (s.setKeyLatch k b).pc = s.pc := rfl
@[simp] theorem setKeyLatch_sp (s : State) (k : Reg) (b : Bool) : (s.setKeyLatch k b).sp = s.sp := rfl
@[simp] theorem setKeyLatch_stack (s : State) (k : Reg) (b : Bool) : (s.setKeyLatch k b).stack = s.stack := rfl
@[simp] theorem setKeyLatch_dt (s : State) (k : Reg) (b : Bool) : (s.setKeyLatch k b).dt = s.dt := rfl
@[simp] theorem setKeyLatch_st (s : State) (k : Reg) (b : Bool) : (s.setKeyLatch k b).st = s.st := rfl
@[simp] theorem setKeyLatch_key (s : State) (k : Reg) (b : Bool) : (s.setKeyLatch k b).key = s.key.set k.toNat b k.isLt := rfl
@[simp] theorem setKeyLatch_disp (s : State) (k : Reg) (b : Bool) : (s.setKeyLatch k b).disp = s.disp := rfl
@[simp] theorem setKeyLatch_dirty (s : State) (k : Reg) (b : Bool) : (s.setKeyLatch k b).dirty = s.dirty := rfl
@[simp] theorem setKeyLatch_wait (s : State) (k : Reg) (b : Bool) : (s.setKeyLatch k b).wait = s.wait := rfl
@[simp] theorem setKeyLatch_mem (s : State) (k : Reg) (b : Bool) : (s.setKeyLatch k b).mem = s.mem := rfl
@[simp] theorem setKeyLatch_draws (s : State) (k : Reg) (b : Bool) : (s.setKeyLatch k b).draws = s.draws := rfl
@[simp] theorem setKeyLatch_schedule (s : State) (k : Reg) (b : Bool) : (s.setKeyLatch k b).schedule = s.schedule := rfl
@[simp] theorem getV_setKeyLatch (s : State) (k : Reg) (b : Bool) (q : Reg) : (s.setKeyLatch k b).getV q = s.getV q := rfl
@[simp] theorem getStack_setKeyLatch (s : State) (k : Reg) (b : Bool) (q : Reg) : (s.setKeyLatch k b).getStack q = s.getStack q := rfl
@[simp] theorem memRead_setKeyLatch (s : State) (k : Reg) (b : Bool) (q : Nat) : (s.setKeyLatch k b).memRead q = s.memRead q := rfl

/-! ### setDisp -/

@[simp] theorem setDisp_v (s : State) (d : Display) : (s.setDisp d).v = s.v := rfl
@[simp] theorem setDisp_i (s : State) (d : Display) : (s.setDisp d).i = s.i := rfl
@[simp] theorem setDisp_pc (s : State) (d : Display) : (s.setDisp d).pc = s.pc := rfl
@[simp] theorem setDisp_sp (s : State) (d : Display) : (s.setDisp d).sp = s.sp := rfl
@[simp] theorem setDisp_stack (s : State) (d : Display) : (s.setDisp d).stack = s.stack := rfl
@[simp] theorem setDisp_dt (s : State) (d : Display) : (s.setDisp d).dt = s.dt := rfl
@[simp] theorem setDisp_st (s : State) (d : Display) : (s.setDisp d).st = s.st := rfl
@[simp] theorem setDisp_key (s : State) (d : Display) : (s.setDisp d).key = s.key := rfl
@[simp] theorem setDisp_disp (s : State) (d : Display) : (s.setDisp d).disp = d := rfl
@[simp] theorem setDisp_dirty (s : State) (d : Display) : (s.setDisp d).dirty = s.dirty := rfl
@[simp] theorem setDisp_wait (s : State) (d : Display) : (s.setDisp d).wait = s.wait := rfl
@[simp] theorem setDisp_mem (s : State) (d : Display) : (s.setDisp d).mem = s.mem := rfl
@[simp] theorem setDisp_draws (s : State) (d : Display) : (s.setDisp d).draws = s.draws := rfl
@[simp] theorem setDisp_schedule (s : State) (d : Display) : (s.setDisp d).schedule = s.schedule := rfl
@[simp] theorem getV_setDisp (s : State) (d : Display) (q : Reg) : (s.setDisp d).getV q = s.getV q := rfl
@[simp] theorem getStack_setDisp (s : State) (d : Display) (q : Reg) : (s.setDisp d).getStack q = s.getStack q := rfl
@[simp] theorem getKey_setDisp (s : State) (d : Display) (q : Reg) : (s.setDisp d).getKey q = s.getKey q := rfl
@[simp] theorem memRead_setDisp (s : State) (d : Display) (q : Nat) : (s.setDisp d).memRead q = s.memRead q := rfl

/-! ### setDirty -/

@[simp] theorem setDirty_v (s : State) (b : Bool) : (s.setDirty b).v = s.v := rfl
@[simp] theorem setDirty_i (s : State) (b : Bool) : (s.setDirty b).i = s.i := rfl
@[simp] theorem setDirty_pc (s : State) (b : Bool) : (s.setDirty b).pc = s.pc := rfl
@[simp] theorem setDirty_sp (s : State) (b : Bool) : (s.setDirty b).sp = s.sp := rfl
@[simp] theorem setDirty_stack (s : State) (b : Bool) : (s.setDirty b).stack = s.stack := rfl
@[simp] theorem setDirty_dt (s : State) (b : Bool) : (s.setDirty b).dt = s.dt := rfl
@[simp] theorem setDirty_st (s : State) (b : Bool) : (s.setDirty b).st = s.st := rfl
@[simp] theorem setDirty_key (s : State) (b : Bool) : (s.setDirty b).key = s.key := rfl
@[simp] theorem setDirty_disp (s : State) (b : Bool) : (s.setDirty b).disp = s.disp := rfl
@[simp] theorem setDirty_dirty (s : State) (b : Bool) : (s.setDirty b).dirty = b := rfl
@[simp] theorem setDirty_wait (s : State) (b : Bool) : (s.setDirty b).wait = s.wait := rfl
@[simp] theorem setDirty_mem (s : State) (b : Bool) : (s.setDirty b).mem = s.mem := rfl
@[simp] theorem setDirty_draws (s : State) (b : Bool) : (s.setDirty b).draws = s.draws := rfl
@[simp] theorem setDirty_schedule (s : State) (b : Bool) : (s.setDirty b).schedule = s.schedule := rfl
@[simp] theorem getV_setDirty (s : State) (b : Bool) (q : Reg) : (s.setDirty b).getV q = s.getV q := rfl
@[simp] theorem getStack_setDirty (s : State) (b : Bool) (q : Reg) : (s.setDirty b).getStack q = s.getStack q := rfl
@[simp] theorem getKey_setDirty (s : State) (b : Bool) (q : Reg) : (s.setDirty b).getKey q = s.getKey q := rfl
@[simp] theorem memRead_setDirty (s : State) (b : Bool) (q : Nat) : (s.setDirty b).memRead q = s.memRead q := rfl

/-! ### setWait -/

@[simp] theorem setWait_v (s : State) (w : Option Reg) : (s.setWait w).v = s.v := rfl
@[simp] theorem setWait_i (s : State) (w : Option Reg) : (s.setWait w).i = s.i := rfl
@[simp] theorem setWait_pc (s : State) (w : Option Reg) : (s.setWait w).pc = s.pc := rfl
@[simp] theorem setWait_sp (s : State) (w : Option Reg) : (s.setWait w).sp = s.sp := rfl
@[simp] theorem setWait_stack (s : State) (w : Option Reg) : (s.setWait w).stack = s.stack := rfl
@[simp] theorem setWait_dt (s : State) (w : Option Reg) : (s.setWait w).dt = s.dt := rfl
@[simp] theorem setWait_st (s : State) (w : Option Reg) : (s.setWait w).st = s.st := rfl
@[simp] theorem setWait_key (s : State) (w : Option Reg) : (s.setWait w).key = s.key := rfl
@[simp] theorem setWait_disp (s : State) (w : Option Reg) : (s.setWait w).disp = s.disp := rfl
@[simp] theorem setWait_dirty (s : State) (w : Option Reg) : (s.setWait w).dirty = s.dirty := rfl
@[simp] theorem setWait_wait (s : State) (w : Option Reg) : (s.setWait w).wait = w := rfl
@[simp] theorem setWait_mem (s : State) (w : Option Reg) : (s.setWait w).mem = s.mem := rfl
@[simp] theorem setWait_draws (s : State) (w : Option Reg) : (s.setWait w).draws = s.draws := rfl
@[simp] theorem setWait_schedule (s : State) (w : Option Reg) : (s.setWait w).schedule = s.schedule := rfl
@[simp] theorem getV_setWait (s : State) (w : Option Reg) (q : Reg) : (s.setWait w).getV q = s.getV q := rfl
@[simp] theorem getStack_setWait (s : State) (w : Option Reg) (q : Reg) : (s.setWait w).getStack q = s.getStack q := rfl
@[simp] theorem getKey_setWait (s : State) (w : Option Reg) (q : Reg) : (s.setWait w).getKey q = s.getKey q := rfl
@[simp] theorem memRead_setWait (s : State) (w : Option Reg) (q : Nat) : (s.setWait w).memRead q = s.memRead q := rfl

/-! ### setMem -/

@[simp] theorem setMem_v (s : State) (m : Memory) : (s.setMem m).v = s.v := rfl
@[simp] theorem setMem_i (s : State) (m : Memory) : (s.setMem m).i = s.i := rfl
@[simp] theorem setMem_pc (s : State) (m : Memory) : (s.setMem m).pc = s.pc := rfl
@[simp] theorem setMem_sp (s : State) (m : Memory) : (s.setMem m).sp = s.sp := rfl
@[simp] theorem setMem_stack (s : State) (m : Memory) : (s.setMem m).stack = s.stack := rfl
@[simp] theorem setMem_dt (s : State) (m : Memory) : (s.setMem m).dt = s.dt := rfl
@[simp] theorem setMem_st (s : State) (m : Memory) : (s.setMem m).st = s.st := rfl
@[simp] theorem setMem_key (s : State) (m : Memory) : (s.setMem m).key = s.key := rfl
@[simp] theorem setMem_disp (s : State) (m : Memory) : (s.setMem m).disp = s.disp := rfl
@[simp] theorem setMem_dirty (s : State) (m : Memory) : (s.setMem m).dirty = s.dirty := rfl
@[simp] theorem setMem_wait (s : State) (m : Memory) : (s.setMem m).wait = s.wait := rfl
@[simp] theorem setMem_mem (s : State) (m : Memory) : (s.setMem m).mem = m := rfl
@[simp] theorem setMem_draws (s : State) (m : Memory) : (s.setMem m).draws = s.draws := rfl
@[simp] theorem setMem_schedule (s : State) (m : Memory) : (s.setMem m).schedule = s.schedule := rfl
@[simp] theorem getV_setMem (s : State) (m : Memory) (q : Reg) : (s.setMem m).getV q = s.getV q := rfl
@[simp] theorem getStack_setMem (s : State) (m : Memory) (q : Reg) : (s.setMem m).getStack q = s.getStack q := rfl
@[simp] theorem getKey_setMem (s : State) (m : Memory) (q : Reg) : (s.setMem m).getKey q = s.getKey q := rfl

/-! ### setDraws -/

@[simp] theorem setDraws_v (s : State) (n : Nat) : (s.setDraws n).v = s.v := rfl
@[simp] theorem setDraws_i (s : State) (n : Nat) : (s.setDraws n).i = s.i := rfl
@[simp] theorem setDraws_pc (s : State) (n : Nat) : (s.setDraws n).pc = s.pc := rfl
@[simp] theorem setDraws_sp (s : State) (n : Nat) : (s.setDraws n).sp = s.sp := rfl
@[simp] theorem setDraws_stack (s : State) (n : Nat) : (s.setDraws n).stack = s.stack := rfl
@[simp] theorem setDraws_dt (s : State) (n : Nat) : (s.setDraws n).dt = s.dt := rfl
@[simp] theorem setDraws_st (s : State) (n : Nat) : (s.setDraws n).st = s.st := rfl
@[simp] theorem setDraws_key (s : State) (n : Nat) : (s.setDraws n).key = s.key := rfl
@[simp] theorem setDraws_disp (s : State) (n : Nat) : (s.setDraws n).disp = s.disp := rfl
@[simp] theorem setDraws_dirty (s : State) (n : Nat) : (s.setDraws n).dirty = s.dirty := rfl
@[simp] theorem setDraws_wait (s : State) (n : Nat) : (s.setDraws n).wait = s.wait := rfl
@[simp] theorem setDraws_mem (s : State) (n : Nat) : (s.setDraws n).mem = s.mem := rfl
@[simp] theorem setDraws_draws (s : State) (n : Nat) : (s.setDraws n).draws = n := rfl
@[simp] theorem setDraws_schedule (s : State) (n : Nat) : (s.setDraws n).schedule = s.schedule := rfl
@[simp] theorem getV_setDraws (s : State) (n : Nat) (q : Reg) : (s.setDraws n).getV q = s.getV q := rfl
@[simp] theorem getStack_setDraws (s : State) (n : Nat) (q : Reg) : (s.setDraws n).getStack q = s.getStack q := rfl
@[simp] theorem getKey_setDraws (s : State) (n : Nat) (q : Reg) : (s.setDraws n).getKey q = s.getKey q := rfl
@[simp] theorem memRead_setDraws (s : State) (n : Nat) (q : Nat) : (s.setDraws n).memRead q = s.memRead q := rfl

/-! ### setSchedule -/

@[simp] theorem setSchedule_v (s : State) (c : Schedule) : (s.setSchedule c).v = s.v := rfl
@[simp] theorem setSchedule_i (s : State) (c : Schedule) : (s.setSchedule c).i = s.i := rfl
@[simp] theorem setSchedule_pc (s : State) (c : Schedule) : (s.setSchedule c).pc = s.pc := rfl
@[simp] theorem setSchedule_sp (s : State) (c : Schedule) : (s.setSchedule c).sp = s.sp := rfl
@[simp] theorem setSchedule_stack (s : State) (c : Schedule) : (s.setSchedule c).stack = s.stack := rfl
@[simp] theorem setSchedule_dt (s : State) (c : Schedule) : (s.setSchedule c).dt = s.dt := rfl
@[simp] theorem setSchedule_st (s : State) (c : Schedule) : (s.setSchedule c).st = s.st := rfl
@[simp] theorem setSchedule_key (s : State) (c : Schedule) : (s.setSchedule c).key = s.key := rfl
@[simp] theorem setSchedule_disp (s : State) (c : Schedule) : (s.setSchedule c).disp = s.disp := rfl
@[simp] theorem setSchedule_dirty (s : State) (c : Schedule) : (s.setSchedule c).dirty = s.dirty := rfl
@[simp] theorem setSchedule_wait (s : State) (c : Schedule) : (s.setSchedule c).wait = s.wait := rfl
@[simp] theorem setSchedule_mem (s : State) (c : Schedule) : (s.setSchedule c).mem = s.mem := rfl
@[simp] theorem setSchedule_draws (s : State) (c : Schedule) : (s.setSchedule c).draws = s.draws := rfl
@[simp] theorem setSchedule_schedule (s : State) (c : Schedule) : (s.setSchedule c).schedule = c := rfl
@[simp] theorem getV_setSchedule (s : State) (c : Schedule) (q : Reg) : (s.setSchedule c).getV q = s.getV q := rfl
@[simp] theorem getStack_setSchedule (s : State) (c : Schedule) (q : Reg) : (s.setSchedule c).getStack q = s.getStack q := rfl
@[simp] theorem getKey_setSchedule (s : State) (c : Schedule) (q : Reg) : (s.setSchedule c).getKey q = s.getKey q := rfl
@[simp] theorem memRead_setSchedule (s : State) (c : Schedule) (q : Nat) : (s.setSchedule c).memRead q = s.memRead q := rfl

/-! ### Reads of the written array -/

@[simp] theorem getV_setV_same (s : State) (r : Reg) (b : Byte) : (s.setV r b).getV r = b := by simp [setV, getV]

theorem getV_setV (s : State) (r q : Reg) (b : Byte) : (s.setV r b).getV q = if r = q then b else s.getV q := by
  simp only [setV, getV, Vector.getElem_set, BitVec.toNat_inj]

@[simp] theorem getV_setV_ne (s : State) {r q : Reg} (h : r ≠ q) (b : Byte) : (s.setV r b).getV q = s.getV q := by
  simp [getV_setV, h]

@[simp] theorem getStack_setStack_same (s : State) (j : Reg) (w : Word) : (s.setStack j w).getStack j = w := by
  simp [setStack, getStack]

theorem getStack_setStack (s : State) (j q : Reg) (w : Word) :
    (s.setStack j w).getStack q = if j = q then w else s.getStack q := by
  simp only [setStack, getStack, Vector.getElem_set, BitVec.toNat_inj]

@[simp] theorem getKey_setKeyLatch_same (s : State) (k : Reg) (b : Bool) : (s.setKeyLatch k b).getKey k = b := by
  simp [setKeyLatch, getKey]

theorem getKey_setKeyLatch (s : State) (k q : Reg) (b : Bool) :
    (s.setKeyLatch k b).getKey q = if k = q then b else s.getKey q := by
  simp only [setKeyLatch, getKey, Vector.getElem_set, BitVec.toNat_inj]

end Sys2Proof.Machine.State
end

