-- ==== Sys2Proof/Laws/Memory.lean ====
section
/-! SUPPORT. Memory: read after write, and the canonical form, which every memory operation keeps. -/

namespace Sys2Proof.Machine

theorem Memory.read_erase (m : Memory) (a q : Nat) :
    Memory.read (Memory.erase m a) q = if q = a then resetByte q else Memory.read m q := by
  induction m with
  | nil => simp [Memory.erase, Memory.read]
  | cons e m ih =>
    obtain ⟨k, b⟩ := e
    by_cases hk : k = a
    · subst hk
      by_cases hq : q = k
      · subst hq; simpa [Memory.erase] using ih
      · simp [Memory.erase, Memory.read, ih, hq, Ne.symm hq]
    · by_cases hq : k = q
      · subst hq; simp [Memory.erase, Memory.read, hk]
      · simp [Memory.erase, Memory.read, hk, hq, ih]

theorem Memory.mem_erase {m : Memory} {a : Nat} {e : Host.Cell} (h : e ∈ Memory.erase m a) : e ∈ m ∧ e.1 ≠ a := by
  induction m with
  | nil => simp [Memory.erase] at h
  | cons f m ih =>
    obtain ⟨k, b⟩ := f
    by_cases hk : k = a
    · simp only [Memory.erase, hk, if_true] at h
      exact ⟨List.mem_cons_of_mem _ (ih h).1, (ih h).2⟩
    · simp only [Memory.erase, hk, if_false, List.mem_cons] at h
      rcases h with rfl | h
      · exact ⟨List.mem_cons_self, hk⟩
      · exact ⟨List.mem_cons_of_mem _ (ih h).1, (ih h).2⟩

theorem Memory.read_insert {m : Memory} {a : Nat} (hm : ∀ e ∈ m, e.1 ≠ a) (b : Byte) (q : Nat) :
    Memory.read (Memory.insert m a b) q = if q = a then b else Memory.read m q := by
  induction m with
  | nil => simp [Memory.insert, Memory.read, eq_comm]
  | cons e m ih =>
    obtain ⟨k, c⟩ := e
    have hk : k ≠ a := hm (k, c) (by simp)
    have ih := ih fun e he => hm e (by simp [he])
    by_cases hlt : a < k
    · simp [Memory.insert, hlt, Memory.read, eq_comm]
    · by_cases hq : k = q
      · subst hq; simp [Memory.insert, hlt, Memory.read, hk]
      · simp [Memory.insert, hlt, Memory.read, hq, ih]

/-- A read after a write: the written byte at the written address, the old byte at every other, whatever the list. -/
theorem Memory.read_write (m : Memory) (a : Nat) (b : Byte) (q : Nat) :
    Memory.read (Memory.write m a b) q = if q = a then b else Memory.read m q := by
  unfold Memory.write
  split
  · next h => rw [Memory.read_erase]; by_cases hq : q = a <;> simp [hq, h]
  · rw [Memory.read_insert fun e he => (Memory.mem_erase he).2, Memory.read_erase]
    by_cases hq : q = a <;> simp [hq]

theorem Memory.mem_insert {m : Memory} {a : Nat} {b : Byte} {e : Host.Cell} (h : e ∈ Memory.insert m a b) :
    e = (a, b) ∨ e ∈ m := by
  induction m with
  | nil => simpa [Memory.insert] using h
  | cons f m ih =>
    obtain ⟨k, c⟩ := f
    by_cases hlt : a < k
    · simpa [Memory.insert, hlt] using h
    · simp only [Memory.insert, hlt, if_false, List.mem_cons] at h
      rcases h with rfl | h
      · simp
      · rcases ih h with h | h <;> simp [h]

theorem Memory.rising_erase {m : Memory} (h : m.Pairwise fun c d => c.1 < d.1) (a : Nat) :
    (Memory.erase m a).Pairwise fun c d => c.1 < d.1 := by
  induction m with
  | nil => simp [Memory.erase]
  | cons e m ih =>
    obtain ⟨k, b⟩ := e
    rw [List.pairwise_cons] at h
    by_cases hk : k = a
    · simpa [Memory.erase, hk] using ih h.2
    · simp only [Memory.erase, hk, if_false, List.pairwise_cons]
      exact ⟨fun e he => h.1 e (Memory.mem_erase he).1, ih h.2⟩

theorem Memory.rising_insert {m : Memory} (h : m.Pairwise fun c d => c.1 < d.1) {a : Nat} (ha : ∀ e ∈ m, e.1 ≠ a)
    (b : Byte) : (Memory.insert m a b).Pairwise fun c d => c.1 < d.1 := by
  induction m with
  | nil => simp [Memory.insert]
  | cons e m ih =>
    obtain ⟨k, c⟩ := e
    have hk : k ≠ a := ha (k, c) (by simp)
    have h' := List.pairwise_cons.1 h
    by_cases hlt : a < k
    · simp only [Memory.insert, hlt, if_true, List.pairwise_cons]
      refine ⟨fun e he => ?_, h'⟩
      rcases List.mem_cons.1 he with rfl | he
      · exact hlt
      · exact hlt.trans (h'.1 e he)
    · simp only [Memory.insert, hlt, if_false, List.pairwise_cons]
      refine ⟨fun e he => ?_, ih h'.2 fun e he => ha e (by simp [he])⟩
      rcases Memory.mem_insert he with rfl | he
      · show k < a; omega
      · exact h'.1 e he

/-- A write inside the address space keeps the canonical form. -/
theorem Memory.wf_write {m : Memory} (h : Memory.wf m) {a : Nat} (ha : a < Config.memSize) (b : Byte) :
    Memory.wf (Memory.write m a b) := by
  unfold Memory.write
  split
  · exact ⟨Memory.rising_erase h.1 a, fun e he => h.2 e (Memory.mem_erase he).1⟩
  · next hb =>
    refine ⟨Memory.rising_insert (Memory.rising_erase h.1 a) (fun e he => (Memory.mem_erase he).2) b, fun e he => ?_⟩
    rcases Memory.mem_insert he with rfl | he
    · exact ⟨ha, hb⟩
    · exact h.2 e (Memory.mem_erase he).1

theorem Memory.wf_nil : Memory.wf [] := ⟨List.Pairwise.nil, by simp⟩

/-! ## The primitives (20_memory.md R42, R43) -/

namespace State

/-- `MemWrite` then `MemRead`: addresses that agree modulo 4096 are the same byte. -/
theorem memRead_memWrite (s : State) (a q : Nat) (b : Byte) :
    (s.memWrite a b).memRead q = if q % Config.memSize = a % Config.memSize then b else s.memRead q := by
  simp [memRead, memWrite, Memory.read_write]

theorem wf_memWrite {s : State} (h : Memory.wf s.mem) (a : Nat) (b : Byte) : Memory.wf (s.memWrite a b).mem :=
  Memory.wf_write h (Nat.mod_lt _ (by decide)) b

/-- `MemWrite` writes memory and nothing else. -/
theorem memWrite_eq (s : State) (a : Nat) (b : Byte) : ∃ m, s.memWrite a b = s.setMem m := ⟨_, rfl⟩

theorem wf_memWriteBytes (bs : List Byte) {s : State} (h : Memory.wf s.mem) (a : Nat) :
    Memory.wf (s.memWriteBytes a bs).mem := by
  induction bs generalizing s a with
  | nil => exact h
  | cons b bs ih => exact ih (wf_memWrite h a b) (a + 1)

/-- A run of byte writes writes memory and nothing else. -/
theorem memWriteBytes_eq (bs : List Byte) (s : State) (a : Nat) : ∃ m, s.memWriteBytes a bs = s.setMem m := by
  induction bs generalizing s a with
  | nil => exact ⟨s.mem, rfl⟩
  | cons b bs ih =>
    obtain ⟨m, hm⟩ := ih (s.memWrite a b) (a + 1)
    exact ⟨m, hm⟩

/-- A byte that none of the writes of a run addresses reads as before. -/
theorem memRead_memWriteBytes_outside (bs : List Byte) (s : State) (a q : Nat)
    (h : ∀ k < bs.length, q % Config.memSize ≠ (a + k) % Config.memSize) :
    (s.memWriteBytes a bs).memRead q = s.memRead q := by
  induction bs generalizing s a with
  | nil => rfl
  | cons b bs ih =>
    have h0 := h 0 (by simp)
    rw [memWriteBytes, ih, memRead_memWrite, if_neg (by simpa using h0)]
    intro k hk
    have := h (k + 1) (by simpa using hk)
    rwa [show a + 1 + k = a + (k + 1) by omega]

/-- A run of at most 4096 byte writes leaves byte number `k` at address `a + k`. -/
theorem memRead_memWriteBytes (bs : List Byte) (s : State) (a : Nat) (hlen : bs.length ≤ Config.memSize) (k : Nat)
    (hk : k < bs.length) : (s.memWriteBytes a bs).memRead (a + k) = bs[k] := by
  induction bs generalizing s a k with
  | nil => simp at hk
  | cons b bs ih =>
    simp only [List.length_cons] at hlen hk
    rw [memWriteBytes]
    cases k with
    | zero =>
      rw [memRead_memWriteBytes_outside, memRead_memWrite, if_pos (by simp)]
      · rfl
      · intro j hj; simp only [Config.memSize] at *; omega
    | succ k =>
      have := ih (s.memWrite a b) (a + 1) (by omega) k (by omega)
      rw [show a + (k + 1) = a + 1 + k by omega, this]
      rfl

end State

end Sys2Proof.Machine
end

