-- ==== Sys2Proof/Laws/HostOps.lean ====
section
/-! SUPPORT. The host's operations: what each does to each field. -/

namespace Sys2Proof.Machine

/-- A timer goes down by one and stops at 0. -/
theorem toNat_tickTimer (t : Byte) : (tickTimer t).toNat = t.toNat - 1 := by
  have ht := t.isLt
  unfold tickTimer
  by_cases h : t > 0
  · rw [if_pos h]
    have : 0 < t.toNat := h
    have one : (1 : Byte).toNat = 1 := rfl
    rw [BitVec.toNat_sub, one]
    omega
  · rw [if_neg h]
    have : ¬ 0 < t.toNat := h
    omega

/-- `set_key`: one latch at an index of range, nothing otherwise. -/
theorem setKey_cases (index : Int) (down : Bool) (s : State) :
    (¬ (0 ≤ index ∧ index < 16) ∧ setKey index down s = s) ∨
    ∃ k : Reg, (k.toNat : Int) = index ∧ setKey index down s = s.setKeyLatch k down := by
  unfold setKey
  by_cases h : 0 ≤ index ∧ index < 16
  · refine .inr ⟨BitVec.ofNat 4 index.toNat, ?_, if_pos h⟩
    simp only [BitVec.toNat_ofNat]
    omega
  · exact .inl ⟨h, if_neg h⟩

@[simp] theorem hostReset_mem (s : State) : (hostReset s).mem = [] := rfl
@[simp] theorem hostReset_pc (s : State) : (hostReset s).pc = 0x200 := rfl
@[simp] theorem hostReset_wait (s : State) : (hostReset s).wait = none := rfl
@[simp] theorem hostReset_draws (s : State) : (hostReset s).draws = s.draws := rfl
@[simp] theorem hostReset_schedule (s : State) : (hostReset s).schedule = s.schedule := rfl

/-- `load_rom` on failure is a reset; on success a reset and then the image at 0x200. -/
theorem loadRomState_cases (image : Option (List Byte)) (s : State) :
    (loadRomSucceeds image = false ∧ loadRomState image s = hostReset s) ∨
    ∃ bytes, image = some bytes ∧ bytes.length ≤ Config.romMax ∧ loadRomSucceeds image = true ∧
      loadRomState image s = (hostReset s).memWriteBytes Config.romBase bytes := by
  cases image with
  | none => exact .inl ⟨rfl, rfl⟩
  | some bytes =>
    by_cases h : bytes.length ≤ Config.romMax
    · exact .inr ⟨bytes, rfl, h, by simp [loadRomSucceeds, h], by simp [loadRomState, h]⟩
    · exact .inl ⟨by simp [loadRomSucceeds, h], by simp [loadRomState, h]⟩

/-- Every host operation keeps memory canonical. -/
theorem wf_performHostOp (o : HostOp) {s : State} (h : Memory.wf s.mem) : Memory.wf (performHostOp o s).mem := by
  cases o with
  | tickTimers => exact h
  | setKey index down => rcases setKey_cases index down s with ⟨-, e⟩ | ⟨k, -, e⟩ <;> simpa [performHostOp, e] using h
  | clearDirty => exact h
  | reset => exact Memory.wf_nil
  | loadRom image =>
    rcases loadRomState_cases image s with ⟨-, e⟩ | ⟨bytes, -, -, -, e⟩
    · rw [performHostOp, e]; exact Memory.wf_nil
    · rw [performHostOp, e]; exact State.wf_memWriteBytes bytes Memory.wf_nil _
  | readPorts => exact h

end Sys2Proof.Machine
end

