-- ==== Sys2Proof/Laws/Ops.lean ====
section
/-! SUPPORT. One lemma per shared operation over registers, stack, blocks and the key scan: all that it can do. -/

namespace Sys2Proof.Machine

namespace State

/-! ## pc and stack -/

theorem advancePc_eq (s : State) : s.advancePc = s.setPc (s.pc + 2) := rfl

/-- A skip moves pc by 2 or by nothing, and nothing else. -/
theorem skipIf_eq (s : State) (c : Bool) : s.skipIf c = s.setPc (if c then s.pc + 2 else s.pc) := by
  cases c <;> rfl

theorem pushPc_eq (s : State) : s.pushPc = (s.setStack s.sp s.pc).setSp (s.sp + 1) := rfl

theorem popPc_eq (s : State) : s.popPc = (s.setSp (s.sp - 1)).setPc (s.getStack (s.sp - 1)) := rfl

/-- A pop right after a push restores SP and brings the pushed pc back. -/
theorem popPc_pushPc (s : State) : s.pushPc.popPc.pc = s.pc ∧ s.pushPc.popPc.sp = s.sp := by
  simp [pushPc_eq, popPc_eq]

/-! ## Register blocks -/

/-- FX55's stores write memory and nothing else. -/
theorem storeRegs_eq (s : State) (n : Nat) : ∃ m, s.storeRegs n = s.setMem m := by
  induction n with
  | zero => exact ⟨s.mem, rfl⟩
  | succ n ih =>
    obtain ⟨m, hm⟩ := ih
    exact ⟨_, by rw [storeRegs, hm]; rfl⟩

theorem wf_storeRegs {s : State} (h : Memory.wf s.mem) (n : Nat) : Memory.wf (s.storeRegs n).mem := by
  induction n with
  | zero => exact h
  | succ n ih => exact wf_memWrite ih _ _

/-- A byte that none of FX55's stores addresses reads as before. -/
theorem memRead_storeRegs_outside (s : State) (n q : Nat)
    (h : ∀ k < n, q % Config.memSize ≠ (s.i.toNat + k) % Config.memSize) : (s.storeRegs n).memRead q = s.memRead q := by
  induction n with
  | zero => rfl
  | succ n ih =>
    rw [storeRegs, memRead_memWrite, if_neg (h n (by omega)), ih fun k hk => h k (by omega)]

/-- FX55's stores leave V[k] at `I + k`. -/
theorem memRead_storeRegs (s : State) (n : Nat) (hn : n ≤ 16) (k : Nat) (hk : k < n) :
    (s.storeRegs n).memRead (s.i.toNat + k) = s.getV (BitVec.ofNat 4 k) := by
  induction n with
  | zero => omega
  | succ n ih =>
    rw [storeRegs, memRead_memWrite]
    by_cases hkn : k = n
    · simp [hkn]
    · rw [if_neg (by simp only [Config.memSize]; omega), ih (by omega) (by omega)]

/-- FX65's loads write registers and nothing else. -/
theorem loadRegs_eq (s : State) (n : Nat) : ∃ v, s.loadRegs n = { s with v := v } := by
  induction n with
  | zero => exact ⟨s.v, rfl⟩
  | succ n ih =>
    obtain ⟨v, hv⟩ := ih
    exact ⟨_, by rw [loadRegs, hv]; rfl⟩

/-- FX65's loads: register `r` below the count takes the byte at `I + r`; the others stay. -/
theorem getV_loadRegs (s : State) (n : Nat) (hn : n ≤ 16) (r : Reg) :
    (s.loadRegs n).getV r = if r.toNat < n then s.memRead (s.i.toNat + r.toNat) else s.getV r := by
  induction n with
  | zero => simp [loadRegs]
  | succ n ih =>
    rw [loadRegs, getV_setV, ih (by omega)]
    have hr := r.isLt
    by_cases h : BitVec.ofNat 4 n = r
    · subst h
      have : (BitVec.ofNat 4 n).toNat = n := by simp only [BitVec.toNat_ofNat]; omega
      rw [this]; simp
    · have hne : r.toNat ≠ n := fun e => h (by rw [← e]; simp)
      rw [if_neg h]
      by_cases hlt : r.toNat < n
      · rw [if_pos hlt, if_pos (by omega)]
      · rw [if_neg hlt, if_neg (by omega)]

end State

/-! ## Flags -/

theorem flagByte_eq_one {b : Bool} : flagByte b = 1 ↔ b = true := by cases b <;> decide

theorem flagByte_eq_zero {b : Bool} : flagByte b = 0 ↔ b = false := by cases b <;> decide

/-- The two phases: the destination holds the result over the state with the flag in VF, VF the flag unless it is the
destination, every other register its old value. -/
theorem getV_flagThenResult (x : Reg) (f : Byte) (g : State → Byte) (s : State) (r : Reg) :
    (flagThenResult x f g s).getV r = if x = r then g (s.setV vf f) else if vf = r then f else s.getV r := by
  simp only [flagThenResult, State.getV_setV]

/-- The two phases write registers and nothing else. -/
theorem flagThenResult_eq (x : Reg) (f : Byte) (g : State → Byte) (s : State) :
    ∃ v, flagThenResult x f g s = { s with v := v } := ⟨_, rfl⟩

/-! ## The key scan -/

/-- The scan finds nothing exactly when no key below the bound is down. -/
theorem lowestKey_none {key : Reg → Bool} {n : Nat} :
    lowestKey key n = none ↔ ∀ k < n, key (BitVec.ofNat 4 k) = false := by
  induction n with
  | zero => simp [lowestKey]
  | succ n ih =>
    rw [lowestKey]
    cases hl : lowestKey key n with
    | some k =>
      simp only [reduceCtorEq, false_iff, not_forall]
      by_contra hc
      push Not at hc
      have := ih.2 fun k hk => by simpa using hc k (by omega)
      simp [hl] at this
    | none =>
      have h := ih.1 hl
      simp only [ite_eq_right_iff, reduceCtorEq, imp_false, Bool.not_eq_true]
      constructor
      · intro hn k hk
        rcases Nat.lt_succ_iff_lt_or_eq.1 hk with hk | rfl
        · exact h k hk
        · exact hn
      · intro hall; exact hall n (by omega)

/-- The scan finds the pressed key below which no key is down. -/
theorem lowestKey_some {key : Reg → Bool} {n : Nat} (hn : n ≤ 16) {k : Reg} :
    lowestKey key n = some k ↔ k.toNat < n ∧ key k = true ∧ ∀ j < k.toNat, key (BitVec.ofNat 4 j) = false := by
  induction n with
  | zero => simp [lowestKey]
  | succ n ih =>
    have ih := ih (by omega)
    rw [lowestKey]
    cases hl : lowestKey key n with
    | some k' =>
      rw [hl] at ih
      simp only [ih]
      constructor
      · rintro ⟨h1, h2⟩; exact ⟨by omega, h2⟩
      · rintro ⟨h1, h2, h3⟩
        refine ⟨?_, h2, h3⟩
        by_contra hc
        have he : k.toNat = n := by omega
        have := lowestKey_none.2 (he ▸ h3)
        simp [hl] at this
    | none =>
      have h := lowestKey_none.1 hl
      have hto : (BitVec.ofNat 4 n).toNat = n := by simp only [BitVec.toNat_ofNat]; omega
      simp only [Option.ite_none_right_eq_some, Option.some.injEq]
      constructor
      · rintro ⟨h1, rfl⟩
        exact ⟨by omega, h1, by rw [hto]; exact h⟩
      · rintro ⟨h1, h2, h3⟩
        have he : k.toNat = n := by
          by_contra hc
          have := h k.toNat (by omega)
          simp [h2] at this
        have hk : BitVec.ofNat 4 n = k := by rw [← he]; simp
        exact ⟨by rw [hk]; exact h2, hk⟩

/-- The poll: nothing, or the lowest pressed key into the waiting register and the wait ended. -/
theorem waitPoll_cases (r : Reg) (s : State) :
    (lowestKey s.getKey 16 = none ∧ waitPoll r s = s) ∨
    ∃ k, lowestKey s.getKey 16 = some k ∧ waitPoll r s = (s.setV r (k.setWidth 8)).setWait none := by
  unfold waitPoll
  cases lowestKey s.getKey 16 with
  | none => exact .inl ⟨rfl, rfl⟩
  | some k => exact .inr ⟨k, rfl, rfl⟩

/-- No key down: the poll changes nothing. -/
theorem waitPoll_of_none (r : Reg) {s : State} (h : ∀ k, s.getKey k = false) : waitPoll r s = s := by
  have hn : lowestKey s.getKey 16 = none := lowestKey_none.2 fun k _ => h _
  unfold waitPoll
  rw [hn]

/-- Some key down: the lowest one goes into the waiting register and the wait ends. -/
theorem waitPoll_of_lowest (r : Reg) {s : State} {k : Reg} (hk : s.getKey k = true)
    (hlow : ∀ j : Reg, j.toNat < k.toNat → s.getKey j = false) :
    waitPoll r s = (s.setV r (k.setWidth 8)).setWait none := by
  have hs : lowestKey s.getKey 16 = some k := by
    refine (lowestKey_some (Nat.le_refl 16)).2 ⟨k.isLt, hk, fun j hj => hlow _ ?_⟩
    rw [BitVec.toNat_ofNat]
    exact lt_of_le_of_lt (Nat.mod_le _ _) hj
  unfold waitPoll
  rw [hs]

theorem waitPoll_mem (r : Reg) (s : State) : (waitPoll r s).mem = s.mem := by
  rcases waitPoll_cases r s with ⟨-, h⟩ | ⟨k, -, h⟩
  · rw [h]
  · rw [h]; rfl

end Sys2Proof.Machine
end

