-- ==== Sys2Proof/Laws/PerInstr.lean ====
section
/-! SUPPORT. Families of statements about every instruction as syntax, one lemma per constructor. -/

namespace Sys2Proof.Laws

/-! ## The masks of 30_encoding.md R64 on the five formats of R62 -/

theorem and_mask_nnn (f : Nibble) (a : Addr12) :
    (f ++ a : Word) &&& 0xF000 = f ++ 0#12 := by
  refine BitVec.eq_of_getLsbD_eq fun k hk => ?_
  simp only [BitVec.getLsbD_and, BitVec.getLsbD_append, BitVec.getLsbD_ofNat]
  interval_cases k <;> simp

theorem and_mask_xkk (f : Nibble) (x : Reg) (kk : Byte) :
    (f ++ x ++ kk : Word) &&& 0xF000 = f ++ 0#4 ++ 0#8 := by
  refine BitVec.eq_of_getLsbD_eq fun k hk => ?_
  simp only [BitVec.getLsbD_and, BitVec.getLsbD_append, BitVec.getLsbD_ofNat]
  interval_cases k <;> simp

theorem and_mask_xsub (f : Nibble) (x : Reg) (kk : Byte) :
    (f ++ x ++ kk : Word) &&& 0xF0FF = f ++ 0#4 ++ kk := by
  refine BitVec.eq_of_getLsbD_eq fun k hk => ?_
  simp only [BitVec.getLsbD_and, BitVec.getLsbD_append, BitVec.getLsbD_ofNat]
  interval_cases k <;> simp

theorem and_mask_xyn (f : Nibble) (x y : Reg) (n : Nibble) :
    (f ++ x ++ y ++ n : Word) &&& 0xF000 = f ++ 0#4 ++ 0#4 ++ 0#4 := by
  refine BitVec.eq_of_getLsbD_eq fun k hk => ?_
  simp only [BitVec.getLsbD_and, BitVec.getLsbD_append, BitVec.getLsbD_ofNat]
  interval_cases k <;> simp

theorem and_mask_xysub (f : Nibble) (x y : Reg) (n : Nibble) :
    (f ++ x ++ y ++ n : Word) &&& 0xF00F = f ++ 0#4 ++ 0#4 ++ n := by
  refine BitVec.eq_of_getLsbD_eq fun k hk => ?_
  simp only [BitVec.getLsbD_and, BitVec.getLsbD_append, BitVec.getLsbD_ofNat]
  interval_cases k <;> simp

/-- Every encoded instruction lies in its own row of opcode_table.json: masked with the row's mask it is the row's match
(30_encoding.md R64). -/
def EncodesInItsRow.Statement (i : Instr) : Prop := i.wellFormed = true → encode i &&& i.rowMask = i.rowMatch

theorem EncodesInItsRow.cls : EncodesInItsRow.Statement .cls :=
  fun _ => by decide

theorem EncodesInItsRow.ret : EncodesInItsRow.Statement .ret :=
  fun _ => by decide

theorem EncodesInItsRow.sys (nnn : Addr12) : EncodesInItsRow.Statement (.sys nnn) :=
  fun _ => (and_mask_nnn 0x0 nnn).trans rfl

theorem EncodesInItsRow.jp (nnn : Addr12) : EncodesInItsRow.Statement (.jp nnn) :=
  fun _ => (and_mask_nnn 0x1 nnn).trans rfl

theorem EncodesInItsRow.call (nnn : Addr12) : EncodesInItsRow.Statement (.call nnn) :=
  fun _ => (and_mask_nnn 0x2 nnn).trans rfl

theorem EncodesInItsRow.seImm (x : Reg) (kk : Byte) : EncodesInItsRow.Statement (.seImm x kk) :=
  fun _ => (and_mask_xkk 0x3 x kk).trans rfl

theorem EncodesInItsRow.sneImm (x : Reg) (kk : Byte) : EncodesInItsRow.Statement (.sneImm x kk) :=
  fun _ => (and_mask_xkk 0x4 x kk).trans rfl

theorem EncodesInItsRow.seReg (x : Reg) (y : Reg) (n : Nibble) : EncodesInItsRow.Statement (.seReg x y n) :=
  fun _ => (and_mask_xyn 0x5 x y n).trans rfl

theorem EncodesInItsRow.ldImm (x : Reg) (kk : Byte) : EncodesInItsRow.Statement (.ldImm x kk) :=
  fun _ => (and_mask_xkk 0x6 x kk).trans rfl

theorem EncodesInItsRow.addImm (x : Reg) (kk : Byte) : EncodesInItsRow.Statement (.addImm x kk) :=
  fun _ => (and_mask_xkk 0x7 x kk).trans rfl

theorem EncodesInItsRow.ldReg (x : Reg) (y : Reg) : EncodesInItsRow.Statement (.ldReg x y) :=
  fun _ => (and_mask_xysub 0x8 x y 0x0).trans rfl

theorem EncodesInItsRow.orReg (x : Reg) (y : Reg) : EncodesInItsRow.Statement (.orReg x y) :=
  fun _ => (and_mask_xysub 0x8 x y 0x1).trans rfl

theorem EncodesInItsRow.andReg (x : Reg) (y : Reg) : EncodesInItsRow.Statement (.andReg x y) :=
  fun _ => (and_mask_xysub 0x8 x y 0x2).trans rfl

theorem EncodesInItsRow.xorReg (x : Reg) (y : Reg) : EncodesInItsRow.Statement (.xorReg x y) :=
  fun _ => (and_mask_xysub 0x8 x y 0x3).trans rfl

theorem EncodesInItsRow.addReg (x : Reg) (y : Reg) : EncodesInItsRow.Statement (.addReg x y) :=
  fun _ => (and_mask_xysub 0x8 x y 0x4).trans rfl

theorem EncodesInItsRow.subReg (x : Reg) (y : Reg) : EncodesInItsRow.Statement (.subReg x y) :=
  fun _ => (and_mask_xysub 0x8 x y 0x5).trans rfl

theorem EncodesInItsRow.shr (x : Reg) (y : Reg) : EncodesInItsRow.Statement (.shr x y) :=
  fun _ => (and_mask_xysub 0x8 x y 0x6).trans rfl

theorem EncodesInItsRow.subnReg (x : Reg) (y : Reg) : EncodesInItsRow.Statement (.subnReg x y) :=
  fun _ => (and_mask_xysub 0x8 x y 0x7).trans rfl

theorem EncodesInItsRow.shl (x : Reg) (y : Reg) : EncodesInItsRow.Statement (.shl x y) :=
  fun _ => (and_mask_xysub 0x8 x y 0xE).trans rfl

theorem EncodesInItsRow.sneReg (x : Reg) (y : Reg) (n : Nibble) : EncodesInItsRow.Statement (.sneReg x y n) :=
  fun _ => (and_mask_xyn 0x9 x y n).trans rfl

theorem EncodesInItsRow.ldI (nnn : Addr12) : EncodesInItsRow.Statement (.ldI nnn) :=
  fun _ => (and_mask_nnn 0xA nnn).trans rfl

theorem EncodesInItsRow.jpV0 (nnn : Addr12) : EncodesInItsRow.Statement (.jpV0 nnn) :=
  fun _ => (and_mask_nnn 0xB nnn).trans rfl

theorem EncodesInItsRow.rnd (x : Reg) (kk : Byte) : EncodesInItsRow.Statement (.rnd x kk) :=
  fun _ => (and_mask_xkk 0xC x kk).trans rfl

theorem EncodesInItsRow.drw (x : Reg) (y : Reg) (n : Nibble) : EncodesInItsRow.Statement (.drw x y n) :=
  fun _ => (and_mask_xyn 0xD x y n).trans rfl

theorem EncodesInItsRow.skp (x : Reg) : EncodesInItsRow.Statement (.skp x) :=
  fun _ => (and_mask_xsub 0xE x 0x9E).trans rfl

theorem EncodesInItsRow.sknp (x : Reg) : EncodesInItsRow.Statement (.sknp x) :=
  fun _ => (and_mask_xsub 0xE x 0xA1).trans rfl

theorem EncodesInItsRow.ldVxDt (x : Reg) : EncodesInItsRow.Statement (.ldVxDt x) :=
  fun _ => (and_mask_xsub 0xF x 0x07).trans rfl

theorem EncodesInItsRow.ldVxK (x : Reg) : EncodesInItsRow.Statement (.ldVxK x) :=
  fun _ => (and_mask_xsub 0xF x 0x0A).trans rfl

theorem EncodesInItsRow.ldDtVx (x : Reg) : EncodesInItsRow.Statement (.ldDtVx x) :=
  fun _ => (and_mask_xsub 0xF x 0x15).trans rfl

theorem EncodesInItsRow.ldStVx (x : Reg) : EncodesInItsRow.Statement (.ldStVx x) :=
  fun _ => (and_mask_xsub 0xF x 0x18).trans rfl

theorem EncodesInItsRow.addI (x : Reg) : EncodesInItsRow.Statement (.addI x) :=
  fun _ => (and_mask_xsub 0xF x 0x1E).trans rfl

theorem EncodesInItsRow.ldF (x : Reg) : EncodesInItsRow.Statement (.ldF x) :=
  fun _ => (and_mask_xsub 0xF x 0x29).trans rfl

theorem EncodesInItsRow.ldB (x : Reg) : EncodesInItsRow.Statement (.ldB x) :=
  fun _ => (and_mask_xsub 0xF x 0x33).trans rfl

theorem EncodesInItsRow.ldMemVx (x : Reg) : EncodesInItsRow.Statement (.ldMemVx x) :=
  fun _ => (and_mask_xsub 0xF x 0x55).trans rfl

theorem EncodesInItsRow.ldVxMem (x : Reg) : EncodesInItsRow.Statement (.ldVxMem x) :=
  fun _ => (and_mask_xsub 0xF x 0x65).trans rfl

theorem EncodesInItsRow.undef8XY8 (x : Reg) (y : Reg) : EncodesInItsRow.Statement (.undef8XY8 x y) :=
  fun _ => (and_mask_xysub 0x8 x y 0x8).trans rfl

theorem EncodesInItsRow.undef8XY9 (x : Reg) (y : Reg) : EncodesInItsRow.Statement (.undef8XY9 x y) :=
  fun _ => (and_mask_xysub 0x8 x y 0x9).trans rfl

theorem EncodesInItsRow.undef8XYA (x : Reg) (y : Reg) : EncodesInItsRow.Statement (.undef8XYA x y) :=
  fun _ => (and_mask_xysub 0x8 x y 0xA).trans rfl

theorem EncodesInItsRow.undef8XYB (x : Reg) (y : Reg) : EncodesInItsRow.Statement (.undef8XYB x y) :=
  fun _ => (and_mask_xysub 0x8 x y 0xB).trans rfl

theorem EncodesInItsRow.undef8XYC (x : Reg) (y : Reg) : EncodesInItsRow.Statement (.undef8XYC x y) :=
  fun _ => (and_mask_xysub 0x8 x y 0xC).trans rfl

theorem EncodesInItsRow.undef8XYD (x : Reg) (y : Reg) : EncodesInItsRow.Statement (.undef8XYD x y) :=
  fun _ => (and_mask_xysub 0x8 x y 0xD).trans rfl

theorem EncodesInItsRow.undef8XYF (x : Reg) (y : Reg) : EncodesInItsRow.Statement (.undef8XYF x y) :=
  fun _ => (and_mask_xysub 0x8 x y 0xF).trans rfl

theorem EncodesInItsRow.undefEXKK (x : Reg) (kk : Byte) : EncodesInItsRow.Statement (.undefEXKK x kk) :=
  fun _ => (and_mask_xkk 0xE x kk).trans rfl

theorem EncodesInItsRow.undefFXKK (x : Reg) (kk : Byte) : EncodesInItsRow.Statement (.undefFXKK x kk) :=
  fun _ => (and_mask_xkk 0xF x kk).trans rfl

end Sys2Proof.Laws
end

