-- ==== Sys2Proof/Laws/Schedule.lean ====
section
/-! SUPPORT. The order of the host's calls: the small lemmas of a schedule, and that no call reads or writes it. -/

namespace Sys2Proof.Machine

namespace Schedule

@[simp] theorem head_cons (call : HostCall) (calls : List HostCall) (l : LaterCalls) : (mk (call :: calls) l).head = call := rfl
@[simp] theorem rest_cons (call : HostCall) (calls : List HostCall) (l : LaterCalls) : (mk (call :: calls) l).rest = mk calls l := rfl
@[simp] theorem head_stepping : stepping.head = .stepCycle := rfl
@[simp] theorem rest_stepping : stepping.rest = stepping := rfl
@[simp] theorem head_repeating_nil : (mk [] (.repeating [])).head = .stepCycle := rfl
@[simp] theorem head_repeating_cons (call : HostCall) (calls : List HostCall) :
    (mk [] (.repeating (call :: calls))).head = call := rfl
@[simp] theorem rest_repeating (calls : List HostCall) :
    (mk [] (.repeating calls)).rest = mk calls.tail (.repeating calls) := rfl
@[simp] theorem head_free (n : Nat) : (mk [] (.free n)).head = Config.hostCall n := rfl
@[simp] theorem rest_free (n : Nat) : (mk [] (.free n)).rest = mk [] (.free (n + 1)) := rfl
@[simp] theorem calls_zero (c : Schedule) : c.calls 0 = c.head := rfl
@[simp] theorem calls_succ (c : Schedule) (n : Nat) : c.calls (n + 1) = c.rest.calls n := rfl

end Schedule

theorem step_eq (s : State) : step s = performCall s.schedule.head (s.setSchedule s.schedule.rest) := rfl

namespace State

@[simp] theorem setSchedule_setSchedule (s : State) (c d : Schedule) : (s.setSchedule c).setSchedule d = s.setSchedule d := rfl

@[simp] theorem setSchedule_self (s : State) : s.setSchedule s.schedule = s := rfl

theorem skipIf_setSchedule (s : State) (b : Bool) (c : Schedule) :
    (s.setSchedule c).skipIf b = (s.skipIf b).setSchedule c := by
  cases b <;> rfl

theorem memWriteBytes_setSchedule (bytes : List Byte) (s : State) (a : Nat) (c : Schedule) :
    (s.setSchedule c).memWriteBytes a bytes = (s.memWriteBytes a bytes).setSchedule c := by
  induction bytes generalizing s a with
  | nil => rfl
  | cons b bytes ih => exact ih (s.memWrite a b) (a + 1)

theorem storeRegs_setSchedule (s : State) (n : Nat) (c : Schedule) :
    (s.setSchedule c).storeRegs n = (s.storeRegs n).setSchedule c := by
  induction n with
  | zero => rfl
  | succ n ih => rw [storeRegs, ih]; rfl

theorem loadRegs_setSchedule (s : State) (n : Nat) (c : Schedule) :
    (s.setSchedule c).loadRegs n = (s.loadRegs n).setSchedule c := by
  induction n with
  | zero => rfl
  | succ n ih => rw [loadRegs, ih]; rfl

end State

/-- No instruction reads or writes the schedule. -/
theorem exec_setSchedule {i : Instr} {s t : State} (h : exec i s = .next t) (c : Schedule) :
    exec i (s.setSchedule c) = .next (t.setSchedule c) := by
  cases i with
  | ldMemVx x => cases h; simp only [exec, execLdMemVx, State.storeRegs_setSchedule]; rfl
  | ldVxMem x => cases h; simp only [exec, execLdVxMem, State.loadRegs_setSchedule]; rfl
  | seImm x kk => cases h; exact congrArg _ (State.skipIf_setSchedule s _ c)
  | sneImm x kk => cases h; exact congrArg _ (State.skipIf_setSchedule s _ c)
  | seReg x y n => cases h; exact congrArg _ (State.skipIf_setSchedule s _ c)
  | sneReg x y n => cases h; exact congrArg _ (State.skipIf_setSchedule s _ c)
  | skp x => cases h; exact congrArg _ (State.skipIf_setSchedule s _ c)
  | sknp x => cases h; exact congrArg _ (State.skipIf_setSchedule s _ c)
  | _ => cases h; rfl

/-- The wait poll neither reads nor writes it. -/
theorem waitPoll_setSchedule (r : Reg) (s : State) (c : Schedule) :
    waitPoll r (s.setSchedule c) = (waitPoll r s).setSchedule c := by
  have : (s.setSchedule c).getKey = s.getKey := rfl
  unfold waitPoll
  rw [this]
  cases lowestKey s.getKey 16 <;> rfl

/-- No host operation reads or writes it. -/
theorem performHostOp_setSchedule (o : HostOp) (s : State) (c : Schedule) :
    performHostOp o (s.setSchedule c) = (performHostOp o s).setSchedule c := by
  cases o with
  | setKey index down =>
    simp only [performHostOp, setKey]
    split <;> rfl
  | loadRom image =>
    cases image with
    | none => rfl
    | some bytes =>
      simp only [performHostOp, loadRomState]
      split
      · exact State.memWriteBytes_setSchedule bytes (hostReset s) _ c
      · rfl
  | _ => rfl

/-- What a call does is the same under every schedule. -/
theorem performCall_setSchedule {call : HostCall} {s t : State} (h : performCall call s = .next t) (c : Schedule) :
    performCall call (s.setSchedule c) = .next (t.setSchedule c) := by
  cases call with
  | op o =>
    cases h
    exact congrArg _ (performHostOp_setSchedule o s c)
  | stepCycle =>
    simp only [performCall, stepCycle, State.setSchedule_wait] at h ⊢
    split at h
    · cases h
      exact congrArg _ (waitPoll_setSchedule _ s c)
    · exact exec_setSchedule h c

end Sys2Proof.Machine
end

