-- ==== Sys2Proof/Tests/Slice0.lean ====
section
/-! SUPPORT. Tests: ill-formed terms are refused, words written out from the spec decode, one step on small states gives what
spec/95_test_vectors.md says (the ids S and T are its rows), and every statement with hypotheses has a state that meets them. -/

namespace Sys2Proof.Tests

open Sys2Proof Sys2Proof.Machine

/-! ## Helpers -/

/-- The state after reset with some registers set. -/
def withRegs (rs : List (Reg × Byte)) : State := rs.foldl (fun s p => s.setV p.1 p.2) State.reset

/-- `s` with bytes placed from an address. -/
def poke (s : State) (a : Nat) (bytes : List Byte) : State := s.memWriteBytes a bytes

/-- One step on the word `w` placed at pc gives a next state of which `p` holds. -/
def stepGives (w : Nat) (s : State) (p : State → Bool) : Bool :=
  match step (s.withFetchWord 16 w) with
  | .next t => p t
  | .fault _ => false
  | .refused _ => false

/-- One step on the state as it is gives a next state of which `p` holds. -/
def stepHere (s : State) (p : State → Bool) : Bool :=
  match step s with
  | .next t => p t
  | .fault _ => false
  | .refused _ => false

/-- The bytes of memory from an address. -/
def peek (s : State) (a n : Nat) : List Byte := (List.range n).map fun k => s.memRead (a + k)

/-! ## Well-formedness: one ill-formed term for each check (30_encoding.md R65, R69) -/

theorem test_sys_0E0_is_not_well_formed : (Instr.sys 0x0E0).wellFormed = false := by decide

theorem test_sys_0EE_is_not_well_formed : (Instr.sys 0x0EE).wellFormed = false := by decide

theorem test_undefEXKK_9E_is_not_well_formed : (Instr.undefEXKK 2 0x9E).wellFormed = false := by decide

theorem test_undefEXKK_A1_is_not_well_formed : (Instr.undefEXKK 2 0xA1).wellFormed = false := by decide

theorem test_undefFXKK_sub_opcodes_are_not_well_formed : ([0x07, 0x0A, 0x15, 0x18, 0x1E, 0x29, 0x33, 0x55, 0x65].map fun kk => (Instr.undefFXKK 2 kk).wellFormed) =
    List.replicate 9 false := by decide

/-! ## Decoding: every constructor from a word written out bit by bit from the patterns of 30_encoding.md R64 and R69 -/

theorem test_decode_control_flow : 
    [0b0000000011101110, 0b0000000100100011, 0b0001101010111100, 0b0010001100000000, 0b1011001100000000].map decodeWord =
      [.ret, .sys 0x123, .jp 0xABC, .call 0x300, .jpV0 0x300] := by decide

theorem test_decode_skips : 
    [0b0011001100101010, 0b0100001100101010, 0b0101000100100001, 0b1001000100101111, 0b1110001010011110, 0b1110001010100001].map decodeWord =
      [.seImm 3 0x2A, .sneImm 3 0x2A, .seReg 1 2 1, .sneReg 1 2 15, .skp 2, .sknp 2] := by decide

theorem test_decode_loads_and_logic : 
    [0b0110101000000101, 0b0111001000000011, 0b1000000101000000, 0b1000000100100001, 0b1000000100100010, 0b1000000100100011].map decodeWord =
      [.ldImm 10 5, .addImm 2 3, .ldReg 1 4, .orReg 1 2, .andReg 1 2, .xorReg 1 2] := by decide

theorem test_decode_arithmetic_shifts_and_random : 
    [0b1000101010110100, 0b1000000100100101, 0b1000000110100110, 0b1000000100100111, 0b1000000100101110, 0b1100001100001111].map decodeWord =
      [.addReg 10 11, .subReg 1 2, .shr 1 10, .subnReg 1 2, .shl 1 2, .rnd 3 0x0F] := by decide

theorem test_decode_index_and_memory : 
    [0b1010001100000000, 0b1111001000011110, 0b1111010000101001, 0b1111010100110011, 0b1111001101010101, 0b1111001001100101].map decodeWord =
      [.ldI 0x300, .addI 2, .ldF 4, .ldB 5, .ldMemVx 3, .ldVxMem 2] := by decide

theorem test_decode_display_timers_and_keys : 
    [0b0000000011100000, 0b1101000100100101, 0b1111001100000111, 0b1111010100001010, 0b1111001100010101, 0b1111001100011000].map decodeWord =
      [.cls, .drw 1 2 5, .ldVxDt 3, .ldVxK 5, .ldDtVx 3, .ldStVx 3] := by decide

theorem test_decode_undefined_rows : 
    [0b1000000100101000, 0b1000000100101001, 0b1000000100101010, 0b1000000100101011, 0b1000000100101100, 0b1000000100101101, 0b1000000100101111, 0b1110001000000000, 0b1111001000110000].map decodeWord =
      [.undef8XY8 1 2, .undef8XY9 1 2, .undef8XYA 1 2, .undef8XYB 1 2, .undef8XYC 1 2, .undef8XYD 1 2, .undef8XYF 1 2, .undefEXKK 2 0x00, .undefFXKK 2 0x30] := by decide

/-- 20_memory.md R44; S4. -/
theorem test_decode_reads_the_high_byte_first : decode [0x6A, 0x05, 0x99] = .ok (.ldImm 10 5, [0x99]) := rfl

theorem test_decode_refuses_short_input : decode [] = .error (.truncated 0) ∧ decode [0x6A] = .error (.truncated 1) := ⟨rfl, rfl⟩

theorem test_decodeTableWord_reads_the_table_numbering : decodeTableWord 16 0x8AB4 = some (.addReg 10 11) := by decide

/-! ## One step of each instruction (spec/95_test_vectors.md) -/

/-- T5. -/
theorem test_sys_touches_only_pc : stepGives 0x01E0 State.reset (fun t => t == (State.reset.withFetchWord 16 0x01E0).setPc 0x202) = true := by decide

/-- T11. -/
theorem test_ret : stepGives 0x00EE ((State.reset.setStack 0 0x204).setSp 1) (fun t => t.pc == 0x204 && t.sp == 0) = true := by decide

/-- T12. -/
theorem test_ret_at_depth_zero_wraps : stepGives 0x00EE (State.reset.setStack 15 0xABC) (fun t => t.pc == 0xABC && t.sp == 15) = true := by decide

/-- T13. -/
theorem test_jp : stepGives 0x1ABC State.reset (fun t => t.pc == 0xABC) = true := by decide

/-- T15. -/
theorem test_call : stepGives 0x2300 State.reset (fun t => t.getStack 0 == 0x202 && t.sp == 1 && t.pc == 0x300) = true := by decide

/-- T17. -/
theorem test_call_at_depth_fifteen_wraps : stepGives 0x2300 ((State.reset.setSp 15).setPc 0xFFFE) (fun t => t.getStack 15 == 0 && t.sp == 0 && t.pc == 0x300) = true := by decide

/-- T19. -/
theorem test_jpV0_passes_the_top_of_memory : stepGives 0xBFFF (withRegs [(0, 0xFF), (15, 0x55)]) (fun t => t.pc == 0x10FE) = true := by decide

/-- T20. -/
theorem test_jpV0_reads_V0_and_not_VX : stepGives 0xB300 (withRegs [(3, 0x55)]) (fun t => t.pc == 0x300) = true := by decide

/-- T44. -/
theorem test_seImm_wraps_pc : stepGives 0x3000 (State.reset.setPc 0xFFFC) (fun t => t.pc == 0x0000) = true := by decide

/-- T31. -/
theorem test_seImm_does_not_skip : stepGives 0x332A (withRegs [(3, 0x2B)]) (fun t => t.pc == 0x202) = true := by decide

/-- T33. -/
theorem test_sneImm_skips : stepGives 0x432A (withRegs [(3, 0x2B)]) (fun t => t.pc == 0x204) = true := by decide

/-- T32. -/
theorem test_sneImm_does_not_skip : stepGives 0x432A (withRegs [(3, 0x2A)]) (fun t => t.pc == 0x202) = true := by decide

/-- T6. -/
theorem test_seReg_ignores_N : stepGives 0x5121 (withRegs [(1, 7), (2, 7)]) (fun t => t.pc == 0x204) = true := by decide

/-- T35. -/
theorem test_seReg_does_not_skip : stepGives 0x5120 (withRegs [(1, 7), (2, 8)]) (fun t => t.pc == 0x202) = true := by decide

/-- T7. -/
theorem test_sneReg_ignores_N : stepGives 0x912F (withRegs [(1, 7), (2, 7)]) (fun t => t.pc == 0x202) = true := by decide

/-- T37. -/
theorem test_sneReg_skips : stepGives 0x9120 (withRegs [(1, 7), (2, 8)]) (fun t => t.pc == 0x204) = true := by decide

/-- T43. -/
theorem test_skp_uses_the_low_nibble : stepGives 0xE19E ((withRegs [(1, 0x17)]).setKeyLatch 7 true) (fun t => t.pc == 0x204) = true := by decide

/-- T40. -/
theorem test_skp_does_not_skip : stepGives 0xE29E (withRegs [(2, 5)]) (fun t => t.pc == 0x202) = true := by decide

/-- T41. -/
theorem test_sknp_skips : stepGives 0xE2A1 (withRegs [(2, 5)]) (fun t => t.pc == 0x204) = true := by decide

/-- T42. -/
theorem test_sknp_does_not_skip : stepGives 0xE2A1 ((withRegs [(2, 5)]).setKeyLatch 5 true) (fun t => t.pc == 0x202) = true := by decide

/-- T51. -/
theorem test_ldImm_to_VF : stepGives 0x6FFF State.reset (fun t => t.getV 15 == 0xFF) = true := by decide

/-- T53. -/
theorem test_addImm_wraps_without_flag : stepGives 0x7201 (withRegs [(2, 0xFF), (15, 7)]) (fun t => t.getV 2 == 0 && t.getV 15 == 7) = true := by decide

/-- T54. -/
theorem test_ldReg : stepGives 0x8140 (withRegs [(4, 0x3C)]) (fun t => t.getV 1 == 0x3C) = true := by decide

/-- T55. -/
theorem test_orReg_keeps_VF : stepGives 0x8121 (withRegs [(1, 0xF0), (2, 0x0F), (15, 9)]) (fun t => t.getV 1 == 0xFF && t.getV 15 == 9) = true := by decide

/-- T56. -/
theorem test_andReg_keeps_VF : stepGives 0x8122 (withRegs [(1, 0xF3), (2, 0x3C), (15, 9)]) (fun t => t.getV 1 == 0x30 && t.getV 15 == 9) = true := by decide

/-- T57. -/
theorem test_xorReg_keeps_VF : stepGives 0x8123 (withRegs [(1, 0xF3), (2, 0x3C), (15, 9)]) (fun t => t.getV 1 == 0xCF && t.getV 15 == 9) = true := by decide

/-- S5. -/
theorem test_addReg_carries : stepGives 0x8AB4 (withRegs [(10, 250), (11, 10)]) (fun t => t.getV 10 == 4 && t.getV 15 == 1) = true := by decide

/-- T64. -/
theorem test_addReg_reads_VF_again : stepGives 0x81F4 (withRegs [(1, 250), (15, 10)]) (fun t => t.getV 1 == 251 && t.getV 15 == 1) = true := by decide

/-- S11. -/
theorem test_subReg_of_equals_clears_VF : stepGives 0x8125 (withRegs [(1, 7), (2, 7), (15, 1)]) (fun t => t.getV 1 == 0 && t.getV 15 == 0) = true := by decide

/-- T68. -/
theorem test_subReg_to_VF : stepGives 0x8F35 (withRegs [(15, 9), (3, 4)]) (fun t => t.getV 15 == 253) = true := by decide

/-- T76. -/
theorem test_shr_ignores_Y : stepGives 0x81A6 (withRegs [(1, 5), (10, 0xFF)]) (fun t => t.getV 1 == 2 && t.getV 15 == 1 && t.getV 10 == 0xFF) = true := by decide

/-- T79. -/
theorem test_shr_of_VF : stepGives 0x8FF6 (withRegs [(15, 0xFF)]) (fun t => t.getV 15 == 0) = true := by decide

/-- T72. -/
theorem test_subnReg_borrows : stepGives 0x8127 (withRegs [(1, 10), (2, 3)]) (fun t => t.getV 1 == 249 && t.getV 15 == 0) = true := by decide

/-- T75. -/
theorem test_subnReg_reads_VF_again : stepGives 0x81F7 (withRegs [(1, 4), (15, 9)]) (fun t => t.getV 1 == 253 && t.getV 15 == 1) = true := by decide

/-- T80. -/
theorem test_shl_ignores_Y : stepGives 0x812E (withRegs [(1, 0x81), (2, 0x33)]) (fun t => t.getV 1 == 2 && t.getV 15 == 1 && t.getV 2 == 0x33) = true := by decide

/-- T83. -/
theorem test_shl_of_VF : stepGives 0x8FFE (withRegs [(15, 0xFF)]) (fun t => t.getV 15 == 2) = true := by decide

/-- 42_load_and_alu.md R135: one byte is drawn. -/
theorem test_rnd_draws_once : stepGives 0xC30F State.reset (fun t => t.draws == 1 && t.pc == 0x202) = true := by decide

/-- T86: whatever byte is drawn. -/
theorem test_rnd_with_mask_zero_is_zero : ∃ t, exec (.rnd 3 0) State.reset = .next t ∧ t.getV 3 = 0 := ⟨_, rfl, by simp [State.getV, State.setV]⟩

/-- T91. -/
theorem test_ldI_clears_the_high_bits : stepGives 0xAFFF (State.reset.setI 0xFFFF) (fun t => t.i == 0x0FFF) = true := by decide

/-- T94. -/
theorem test_addI_wraps : stepGives 0xF11E ((withRegs [(1, 1)]).setI 0xFFFF) (fun t => t.i == 0) = true := by decide

/-- T93. -/
theorem test_addI_leaves_VF : stepGives 0xF11E ((withRegs [(1, 1)]).setI 0x0FFF) (fun t => t.i == 0x1000 && t.getV 15 == 0) = true := by decide

/-- T96. -/
theorem test_ldF_uses_the_low_nibble : stepGives 0xF129 (withRegs [(1, 0x1A)]) (fun t => t.i == 0x82) = true := by decide

/-- T98. -/
theorem test_ldB_wraps_its_address : stepGives 0xF333 ((withRegs [(3, 255)]).setI 0xFFE) (fun t => [t.memRead 0xFFE, t.memRead 0xFFF, t.memRead 0] == [2, 5, 5]) = true := by decide

/-- T97. -/
theorem test_ldB_digits : stepGives 0xF533 ((withRegs [(5, 156)]).setI 0x300) (fun t => peek t 0x300 3 == [1, 5, 6] && t.i == 0x300) = true := by decide

/-- S7. -/
theorem test_ldMemVx : stepGives 0xF355 ((withRegs [(0, 0x11), (1, 0x22), (2, 0x33), (3, 0x44)]).setI 0x300) (fun t => peek t 0x300 5 == [0x11, 0x22, 0x33, 0x44, 0] && t.i == 0x304) = true := by decide

/-- T102. -/
theorem test_ldMemVx_wraps_its_address : stepGives 0xF355 ((withRegs [(0, 0xAA), (1, 0xBB), (2, 0xCC), (3, 0xDD)]).setI 0xFFE) (fun t => [t.memRead 0xFFE, t.memRead 0xFFF, t.memRead 0, t.memRead 1] == [0xAA, 0xBB, 0xCC, 0xDD] && t.i == 0x1002) = true := by decide

/-- T103. -/
theorem test_ldVxMem : stepGives 0xF265 (poke ((withRegs [(3, 0x99)]).setI 0x300) 0x300 [0x11, 0x22, 0x33]) (fun t => [t.getV 0, t.getV 1, t.getV 2, t.getV 3] == [0x11, 0x22, 0x33, 0x99] && t.i == 0x303) = true := by decide

/-- T104. -/
theorem test_ldVxMem_wraps_I : stepGives 0xF065 (poke ((withRegs [(1, 7)]).setI 0xFFFF) 0xFFF [0x42]) (fun t => t.getV 0 == 0x42 && t.getV 1 == 7 && t.i == 0) = true := by decide

/-- T119. -/
theorem test_cls : stepGives 0x00E0 ((State.reset.setDisp (dispFlip dispClear 3 4)).setDirty false) (fun t => !dispGet t.disp 3 4 && t.dirty) = true := by decide

/-- T111. -/
theorem test_drw_wraps_at_both_edges : stepGives 0xD012 (poke ((withRegs [(0, 60), (1, 31)]).setI 0x300) 0x300 [0xFF, 0x81]) (fun t => [dispGet t.disp 60 31, dispGet t.disp 3 31, dispGet t.disp 4 31, dispGet t.disp 3 0, dispGet t.disp 61 0] ==
    [true, true, false, true, false]) = true := by decide

/-- T116. -/
theorem test_drw_of_VF_VF_latches_its_operands : stepGives 0xDFF1 (poke ((withRegs [(15, 5)]).setI 0x300) 0x300 [0x80]) (fun t => dispGet t.disp 5 5 && t.getV 15 == 0) = true := by decide

/-- T120. -/
theorem test_ldVxDt : stepGives 0xF307 (State.reset.setDt 0x2A) (fun t => t.getV 3 == 0x2A && t.dt == 0x2A) = true := by decide

/-- T130, step 1. -/
theorem test_ldVxK_only_arms_the_wait : stepGives 0xF50A (State.reset.setKeyLatch 2 true) (fun t => t.wait == some 5 && t.pc == 0x202 && t.getV 5 == 0) = true := by decide

/-- T121. -/
theorem test_ldDtVx : stepGives 0xF315 (withRegs [(3, 0x3C)]) (fun t => t.dt == 0x3C) = true := by decide

/-- T122. -/
theorem test_ldStVx : stepGives 0xF318 (withRegs [(3, 5)]) (fun t => t.st == 5 && soundActive t) = true := by decide

/-- T88, S13. -/
theorem test_undefined_words_only_advance_pc : ([0x8128, 0x8129, 0x812A, 0x812B, 0x812C, 0x812D, 0x812F, 0xE200, 0xF2FF].map fun w =>
    stepGives w State.reset (fun t => t == (State.reset.withFetchWord 16 w).setPc 0x202)) = List.replicate 9 true := by decide

/-! ## Fetch, host operations, reset -/

/-- T1. -/
theorem test_fetch_at_an_odd_pc : stepHere ((poke State.reset 0x201 [0x60, 0x07]).setPc 0x201) (fun t => t.getV 0 == 7 && t.pc == 0x203) = true := by decide

/-- T2. -/
theorem test_fetch_across_the_top_of_memory : stepHere ((poke State.reset 0xFFF [0x61, 0x09]).setPc 0xFFF) (fun t => t.getV 1 == 9 && t.pc == 0x1001) = true := by decide

/-- T4. -/
theorem test_fetch_reduces_pc_at_the_port : (State.reset.setPc 0x1050).fetchWord = 0xF090 := by decide

/-- T127. -/
theorem test_wait_poll_delivers_the_lowest_key : stepHere (((State.reset.setWait (some 5)).setKeyLatch 9 true).setKeyLatch 3 true)
    (fun t => t.getV 5 == 3 && t.wait == none && t.pc == 0x200) = true := by decide

/-- T129. -/
theorem test_wait_poll_without_a_key_changes_nothing : stepHere (State.reset.setWait (some 5)) (fun t => t == State.reset.setWait (some 5)) = true := by decide

/-- T129; 60_exceptions.md R176. -/
theorem test_a_scheduled_tick_runs_while_waiting : stepHere (((State.reset.setWait (some 5)).setDt 3).setSchedule ⟨[.op .tickTimers], .repeating []⟩)
    (fun t => t.dt == 2 && t.wait == some 5 && t.schedule == .stepping) = true := by decide

/-- T125. -/
theorem test_tick_stops_at_zero : (tickTimers (State.reset.setDt 255)).dt = 254 ∧ (tickTimers (State.reset.setDt 255)).st = 0 := by decide

/-- S12. -/
theorem test_set_key_ignores_other_indices : setKey 16 true State.reset = State.reset ∧ setKey (-1) true State.reset = State.reset ∧
    setKey 15 true State.reset = State.reset.setKeyLatch 15 true := by decide

/-- S1; 70_reset_and_hazards.md R203. -/
theorem test_load_rom_places_the_image : peek (loadRom (some [0x6A, 0x05]) (withRegs [(1, 1)])).1 0x1FF 4 = [0, 0x6A, 0x05, 0] ∧
    (loadRom (some [0x6A, 0x05]) (withRegs [(1, 1)])).1.getV 1 = 0 := by decide

/-- S1, T134. -/
theorem test_load_rom_takes_3584_bytes_and_no_more : (loadRom (some (List.replicate 3584 0)) State.reset).2 = true ∧ (loadRom (some (List.replicate 3585 0)) State.reset).2 = false ∧
    (loadRom none State.reset).2 = false := by
  simp only [loadRom, loadRomSucceeds, List.length_replicate]
  decide

/-- S2; 10_state.md R31: the first and the last glyph and the bytes beside them. -/
theorem test_reset_font : peek State.reset 0x04F 6 = [0, 0xF0, 0x90, 0x90, 0x90, 0xF0] ∧ peek State.reset 0x09B 6 = [0xF0, 0x80, 0xF0, 0x80, 0x80, 0] := by decide

/-- 60_exceptions.md R186: an infinite order of calls. -/
theorem test_a_host_can_tick_for_ever : (List.range 5).map (Schedule.calls ⟨[.op .clearDirty], .repeating [.stepCycle, .op .tickTimers]⟩) =
    [.op .clearDirty, .stepCycle, .op .tickTimers, .stepCycle, .op .tickTimers] := by decide

/-! ## Witnesses: the hypotheses of each statement can be met (the theorem's name gives the statement) -/

theorem witness_DecodeOfEncodedBytesIsTheInstruction :
    (Instr.sys 0x123).wellFormed = true ∧ (Instr.undefFXKK 15 0xFF).wellFormed = true := by decide

theorem witness_StepCyclePollsOrFetchesAdvancesAndExecutes :
    (State.reset.setWait (some 15)).wait = some 15 ∧
    (State.reset.withFetchWord 16 0x6A05).wait = none ∧
    decode [(State.reset.withFetchWord 16 0x6A05).memRead 0x200, (State.reset.withFetchWord 16 0x6A05).memRead 0x201] =
      .ok (.ldImm 10 5, []) := ⟨rfl, rfl, rfl⟩

theorem witness_StepRunsTheDecodedInstruction :
    ∃ (s : State) (i : Instr), s.wait = none ∧ s.cycleNext = true ∧
      decode [s.memRead s.pc.toNat, s.memRead (s.pc.toNat + 1)] = .ok (i, []) ∧ i = .ldImm 10 5 :=
  ⟨(State.reset.withFetchWord 16 0x6A05).setSchedule ⟨[.stepCycle, .op .tickTimers], .free 0⟩, _, rfl, rfl, rfl, rfl⟩

theorem witness_StepPerformsTheScheduledCall :
    (State.reset.setSchedule ⟨[.op (.setKey 7 true)], .free 0⟩).schedule.head = .op (.setKey 7 true) ∧
    (State.reset.setSchedule ⟨[], .repeating [.op .tickTimers]⟩).schedule.head = .op .tickTimers ∧
    State.reset.cycleNext = true ∧ (State.reset.setSchedule ⟨[.stepCycle], .free 0⟩).cycleNext = true := ⟨rfl, rfl, rfl, rfl⟩

theorem witness_EveryStepTakesOneCallFromTheSchedule :
    (∃ t, step (State.reset.setSchedule ⟨[.op .clearDirty], .free 3⟩) = .next t ∧ t.schedule = ⟨[], .free 3⟩) ∧
    1 < (Schedule.mk [.op .clearDirty, .stepCycle] (.free 3)).next.length ∧ [HostCall.op .tickTimers] ≠ [] :=
  ⟨⟨_, rfl, rfl⟩, by decide, by decide⟩

/-- A host that ticks for ever: the reset state under it, and its run, which both kinds of run share here. -/
theorem witness_EveryOrderOfHostCallsIsARun :
    ∃ s : State, s.schedule = ⟨[], .repeating [.op .tickTimers]⟩ ∧ HostRun s.schedule.calls (fun _ => s) ∧ StepRun (fun _ => s) := by
  refine ⟨State.reset.setSchedule ⟨[], .repeating [.op .tickTimers]⟩, rfl, fun n => ?_, fun _ => rfl⟩
  have h : ∀ n, Schedule.calls ⟨[], .repeating [.op .tickTimers]⟩ n = .op .tickTimers ∧
      Schedule.calls ⟨[.op .tickTimers], .repeating [.op .tickTimers]⟩ n = .op .tickTimers := by
    intro n
    induction n with
    | zero => exact ⟨rfl, rfl⟩
    | succ n ih => exact ⟨ih.1, ih.1⟩
  show performCall (Schedule.calls ⟨[], .repeating [.op .tickTimers]⟩ n) _ = _
  rw [(h n).1]
  rfl

theorem witness_StepKeepsMemoryCanonical :
    ∃ s t, State.Inv s ∧ step s = .next t ∧ t.mem ≠ s.mem :=
  ⟨(State.reset.withFetchWord 16 0xF055).setI 0x50, _, show Memory.wf _ by decide, rfl, by decide⟩

theorem witness_CanonicalMemoriesWithEqualBytesAreEqual :
    Memory.wf (Memory.write [(0x300, 5)] 0x050 7) ∧ Memory.wf [(0x050, 7), (0x300, 5)] ∧
    ∀ a, a < 4096 → Memory.read (Memory.write [(0x300, 5)] 0x050 7) a = Memory.read [(0x050, 7), (0x300, 5)] a :=
  ⟨by decide, by decide, fun _ _ => rfl⟩

theorem witness_StatesWithEqualComponentsAreEqual :
    State.reset.Inv ∧ ((State.reset.memWrite 0x300 5).memWrite 0x300 0).Inv ∧
    ∀ c : Component, c.Same State.reset ((State.reset.memWrite 0x300 5).memWrite 0x300 0) :=
  ⟨show Memory.wf _ by decide, show Memory.wf _ by decide, fun c => by cases c <;> rfl⟩

theorem witness_MemReadAfterMemWrite :
    (0x1000 % 4096 = 0 % 4096) ∧ ¬ ∃ p, Component.byte 0x0FFF = .byte p ∧ p % 4096 = 0 % 4096 :=
  ⟨rfl, by rintro ⟨p, hp, h⟩; cases hp; exact absurd h (by decide)⟩

theorem witness_LoadRomLoadsOrLeavesReset :
    (loadRom none State.reset).2 = false ∧ (loadRom (some (List.replicate 3585 1)) State.reset).2 = false ∧
    (List.replicate 3584 (1 : Byte)).length ≤ 3584 ∧ 3583 < (List.replicate 3584 (1 : Byte)).length ∧
    ¬ ∃ a, Component.byte 0x1FF = .byte a ∧ 0x200 ≤ a % 4096 ∧ a % 4096 < 0x200 + (List.replicate 3584 (1 : Byte)).length := by
  simp only [loadRom, loadRomSucceeds, List.length_replicate]
  refine ⟨trivial, by decide, by decide, by decide, ?_⟩
  rintro ⟨a, ha, h, -⟩
  cases ha
  exact absurd h (by decide)

theorem witness_SetKeyWritesOneLatchOrNothing :
    ((15 : Reg).toNat = 15) ∧ ((-1 : Int) < 0 ∨ 16 ≤ (-1 : Int)) ∧ ((16 : Int) < 0 ∨ 16 ≤ (16 : Int)) := by decide

theorem witness_ClearDirtyClearsOnlyTheDirtyFlag :
    State.reset.dirty = true ∧ (∃ t, exec (.ldImm 1 2) State.reset = .next t) ∧ ∃ t, stepCycle State.reset = .next t :=
  ⟨rfl, ⟨_, rfl⟩, _, rfl⟩

theorem witness_DisplayPortIsRowMajor : 63 < 64 ∧ 31 < 32 ∧ 31 * 64 + 63 = 2047 := by decide

theorem witness_NoOpWordsOnlyAdvancePc :
    (State.reset.withFetchWord 16 0x0FFF).wait = none ∧
    ((State.reset.withFetchWord 16 0x0FFF).fetchWord.toNat < 0x1000 ∧
      (State.reset.withFetchWord 16 0x0FFF).fetchWord.toNat ≠ 0x00E0 ∧
      (State.reset.withFetchWord 16 0x0FFF).fetchWord.toNat ≠ 0x00EE) ∧
    (State.reset.withFetchWord 16 0x812F).wait = none ∧
    UndefinedNumber (State.reset.withFetchWord 16 0x812F).fetchWord.toNat :=
  ⟨rfl, by decide, rfl, .inl (by decide)⟩

theorem witness_UpToSixteenNestedCallsReturnCorrectly :
    (List.replicate 16 ((0x202, 0x300) : Word × Addr12)).length ≤ 16 := by decide

/-- For the five statements on the flag-writing instructions of family 8: each of their clauses has operands. -/
theorem witness_AddWritesCarryThenTheSumReadAgain :
    ((14 : Reg) ≠ vf ∧ (0 : Reg) ≠ vf) ∧ ((14 : Reg) ≠ vf ∧ (15 : Reg) = vf) ∧ ((15 : Reg) = vf ∧ (14 : Reg) ≠ vf) := by decide

theorem witness_SubWritesGreaterThenTheDifferenceReadAgain :
    ((1 : Reg) ≠ vf ∧ (2 : Reg) ≠ vf) ∧ ((1 : Reg) ≠ vf ∧ (15 : Reg) = vf) ∧ ((15 : Reg) = vf ∧ (1 : Reg) ≠ vf) := by decide

theorem witness_SubnWritesGreaterThenTheReversedDifferenceReadAgain :
    ((3 : Reg) ≠ vf ∧ (3 : Reg) ≠ vf) ∧ ((3 : Reg) ≠ vf ∧ (15 : Reg) = vf) ∧ ((15 : Reg) = vf ∧ (3 : Reg) ≠ vf) := by decide

theorem witness_ShiftsWriteTheLostBitThenShiftVxAlone : (14 : Reg) ≠ vf ∧ (15 : Reg) = vf := by decide

theorem witness_FontAddressReadsTheGlyphAfterReset : (withRegs [(3, 0x1F)]).mem = [] ∧ 4 < 5 := by decide

/-- For StoreBlock and LoadBlock: the last register moved, a register above it, and a byte outside the block. -/
theorem witness_StoreBlockWritesV0ToVxAndAdvancesI :
    (15 : Reg).toNat ≤ (15 : Reg).toNat ∧
    ¬ (Component.byte 0x304 = .index ∨ ∃ a k, Component.byte 0x304 = .byte a ∧ k ≤ (3 : Reg).toNat ∧
        a % 4096 = dataAddr (State.reset.setI 0x300) k % 4096) := by
  refine ⟨by decide, ?_⟩
  rintro (h | ⟨a, k, h, hk, e⟩)
  · cases h
  · cases h
    have hk' : k ≤ 3 := hk
    have e' : 0x304 % 4096 = (0x300 + k) % 4096 := e
    omega

theorem witness_LoadBlockReadsV0ToVxAndAdvancesI :
    (15 : Reg).toNat ≤ (15 : Reg).toNat ∧
    ¬ (Component.reg 4 = .index ∨ ∃ k : Reg, Component.reg 4 = .reg k ∧ k.toNat ≤ (3 : Reg).toNat) := by
  refine ⟨by decide, ?_⟩
  rintro (h | ⟨k, h, hk⟩)
  · cases h
  · cases h
    exact absurd hk (by decide)

theorem witness_BcdStoresThreeDecimalDigits :
    ¬ ∃ a k, Component.byte 0x303 = .byte a ∧ k < 3 ∧ a % 4096 = dataAddr (State.reset.setI 0x300) k % 4096 := by
  rintro ⟨a, k, h, hk, e⟩
  cases h
  have e' : 0x303 % 4096 = (0x300 + k) % 4096 := e
  omega

theorem witness_StoredBytesAreFetchedByTheNextStep :
    (∃ (x j k : Reg) (s : State), k.toNat = j.toNat + 1 ∧ k.toNat ≤ x.toNat ∧
      s.pc.toNat % 4096 = dataAddr s j.toNat % 4096) ∧
    (State.reset.setI 0x200).pc.toNat % 4096 = dataAddr (State.reset.setI 0x200) 0 % 4096 ∧
    (State.reset.setI 0x11FF).pc.toNat % 4096 = dataAddr (State.reset.setI 0x11FF) 1 % 4096 :=
  ⟨⟨1, 0, 1, State.reset.setI 0x1200, by decide, by decide, by decide⟩, by decide, by decide⟩

/-- A state whose sprite is the one byte 0x80, drawn at column 6, row 4. -/
def spriteState : State := (poke ((withRegs [(0, 70), (1, 36)]).setI 0x300) 0x300 [0x80])

theorem witness_DrawFlipsTheCoveredCellsAndReportsCollision :
    SpriteCovers (fun r => spriteState.memRead (dataAddr spriteState r)) 70 36 1 6 4 ∧
    ¬ SpriteCovers (fun r => spriteState.memRead (dataAddr spriteState r)) 70 36 1 7 4 ∧
    (∀ cx cy, SpriteCovers (fun r => spriteState.memRead (dataAddr spriteState r)) 70 36 1 cx cy →
      dispGet spriteState.disp cx cy = false) ∧
    dispGet (spriteState.setDisp (dispFlip dispClear 6 4)).disp 6 4 = true := by
  refine ⟨⟨0, by decide, 0, by decide, by decide, by decide, by decide⟩, ?_, ?_, by decide⟩
  · rintro ⟨r, hr, c, hc, hbit, hx, hy⟩
    obtain rfl : r = 0 := by omega
    interval_cases c <;> first | omega | exact absurd hbit (by decide)
  · intro cx cy _
    show dispGet dispClear cx cy = false
    simp [dispGet, dispClear]

theorem witness_DrawingTwiceRestoresTheDisplay : (14 : Reg) ≠ vf ∧ (0 : Reg) ≠ vf := by decide

theorem witness_WaitPollTakesTheLowestPressedKey :
    (State.reset.setWait (some 15)).wait = some 15 ∧ (∀ k, (State.reset.setWait (some 15)).getKey k = false) ∧
    ((State.reset.setWait (some 5)).setKeyLatch 15 true).getKey 15 = true ∧
    (∀ j : Reg, j.toNat < (15 : Reg).toNat → ((State.reset.setWait (some 5)).setKeyLatch 15 true).getKey j = false) ∧
    ((State.reset.setWait (some 5)).setKeyLatch 0 true).getKey 0 = true := by decide

theorem witness_WaitStateMovesOnlyAsTheStateMachineSays :
    (∃ t, stepCycle (State.reset.withFetchWord 16 0xF50A) = .next t) ∧
    (State.reset.withFetchWord 16 0xF50A).awaitingKey = false ∧
    (∃ t, stepCycle (State.reset.setWait (some 5)) = .next t) ∧ (State.reset.setWait (some 5)).awaitingKey = true :=
  ⟨⟨_, rfl⟩, rfl, ⟨_, rfl⟩, rfl⟩

theorem witness_OnlyTheNamedInstructionsWriteEachArray :
    ∃ t, exec (.ldImm 1 2) State.reset = .next t ∧ (∀ x, Instr.ldImm 1 2 ≠ .ldB x) ∧ (∀ x, Instr.ldImm 1 2 ≠ .ldMemVx x) ∧
      Instr.ldImm 1 2 ≠ .cls ∧ (∀ x y n, Instr.ldImm 1 2 ≠ .drw x y n) ∧ ∀ nnn, Instr.ldImm 1 2 ≠ .call nnn :=
  ⟨_, rfl, by simp, by simp, by simp, by simp, by simp⟩

theorem witness_OnlyTheNamedInstructionsWriteEachRegister :
    ∃ t, exec (.addReg 1 2) State.reset = .next t ∧ writesPc (.addReg 1 2) = false ∧ writesIndex (.addReg 1 2) = false ∧
      (∀ x, Instr.addReg 1 2 ≠ .ldDtVx x) ∧ (∀ x, Instr.addReg 1 2 ≠ .ldStVx x) ∧ ∀ x, Instr.addReg 1 2 ≠ .ldVxK x :=
  ⟨_, rfl, rfl, rfl, by simp, by simp, by simp⟩

theorem witness_GeneralRegistersChangeOnlyAsNamed :
    (∃ t, exec (.ldVxMem 3) State.reset = .next t) ∧ ¬ mayWriteReg (.ldVxMem 3) 4 ∧ ¬ mayWriteReg (.addReg 1 2) 2 :=
  ⟨⟨_, rfl⟩, by simp [mayWriteReg], by simp [mayWriteReg, vf]⟩

theorem witness_NoInstructionReadsSoundTimerDirtyOrSchedule : ∃ t, exec (.drw 0 1 1) spriteState = .next t := ⟨_, rfl⟩

theorem witness_EndedStateIsAFixedPointOfStepCycle : (State.reset.withFetchWord 16 0x1200).ended :=
  ⟨rfl, by decide, 0x200, by decide, by decide⟩

end Sys2Proof.Tests
end

/-! PROOFS. The fields of an opcode word (30_encoding.md R61) and the two branches of `step_cycle` (30_encoding.md R66). -/

namespace Sys2Proof

/-! ## Each field as a number, and the two wide fields as their digits -/

theorem fieldF_toNat (w : Word) : (fieldF w).toNat = w.toNat / 4096 := by
  simp only [fieldF, BitVec.extractLsb'_toNat, Nat.shiftRight_eq_div_pow]
  omega

theorem fieldX_toNat (w : Word) : (fieldX w).toNat = w.toNat / 256 % 16 := by
  simp only [fieldX, BitVec.extractLsb'_toNat, Nat.shiftRight_eq_div_pow, Nat.reducePow]

theorem fieldY_toNat (w : Word) : (fieldY w).toNat = w.toNat / 16 % 16 := by
  simp only [fieldY, BitVec.extractLsb'_toNat, Nat.shiftRight_eq_div_pow, Nat.reducePow]

theorem fieldN_toNat (w : Word) : (fieldN w).toNat = w.toNat % 16 := by
  simp only [fieldN, BitVec.extractLsb'_toNat, Nat.shiftRight_zero, Nat.reducePow]

theorem fieldKK_toNat (w : Word) : (fieldKK w).toNat = w.toNat % 256 := by
  simp only [fieldKK, BitVec.extractLsb'_toNat, Nat.shiftRight_zero, Nat.reducePow]

theorem fieldNNN_toNat (w : Word) : (fieldNNN w).toNat = w.toNat % 4096 := by
  simp only [fieldNNN, BitVec.extractLsb'_toNat, Nat.shiftRight_zero, Nat.reducePow]

theorem fieldKK_eq_append (w : Word) : fieldKK w = fieldY w ++ fieldN w :=
  (BitVec.extractLsb'_append_extractLsb'_eq_extractLsb' (start₁ := 0) (len₁ := 4) (len₂ := 4) rfl).symm

theorem fieldNNN_eq_append (w : Word) : fieldNNN w = fieldX w ++ fieldY w ++ fieldN w := by
  have digits : fieldX w ++ fieldY w = w.extractLsb' 4 8 :=
    BitVec.extractLsb'_append_extractLsb'_eq_extractLsb' rfl
  rw [digits]
  exact (BitVec.extractLsb'_append_extractLsb'_eq_extractLsb' (start₁ := 0) (len₁ := 4) (len₂ := 8) rfl).symm

/-- Settles O4: the value of each field by its shift and width, the overlaps by joining adjacent bit ranges. -/
theorem fieldsAreTheHexDigitsOfTheWord : Obligations.FieldsAreTheHexDigitsOfTheWord := fun w =>
  ⟨fieldF_toNat w, fieldX_toNat w, fieldY_toNat w, fieldN_toNat w, fieldKK_toNat w, fieldNNN_toNat w,
    fieldKK_eq_append w, fieldNNN_eq_append w⟩

end Sys2Proof

namespace Sys2Proof.Machine

/-! ## The two branches of `step_cycle` -/

theorem stepCycle_of_wait {s : State} {r : Reg} (h : s.wait = some r) : stepCycle s = .next (waitPoll r s) := by
  rw [stepCycle, h]

theorem stepCycle_of_no_wait {s : State} (h : s.wait = none) :
    stepCycle s = exec (decodeWord s.fetchWord) s.advancePc := by
  rw [stepCycle, h]

/-- The two bytes at pc decode to what the fetched word decodes to, with no byte left over. -/
theorem decode_bytes_at_pc (s : State) :
    decode [s.memRead s.pc.toNat, s.memRead (s.pc.toNat + 1)] = .ok (decodeWord s.fetchWord, []) := rfl

/-- Settles O8: the wait register picks the branch, and the bytes at pc fix the instruction executed. -/
theorem stepCyclePollsOrFetchesAdvancesAndExecutes : Obligations.StepCyclePollsOrFetchesAdvancesAndExecutes := by
  refine fun s => ⟨fun r hwait => stepCycle_of_wait hwait, fun i hwait hdecode => ?_⟩
  have hi : decodeWord s.fetchWord = i := by simpa [decode_bytes_at_pc] using hdecode
  rw [stepCycle_of_no_wait hwait, hi, State.advancePc]

end Sys2Proof.Machine

/-! PROOFS. Register load and the two subtractions (42_load_and_alu.md R120, R128, R132, R126). -/

namespace Sys2Proof.Machine

/-! ## Instructions that write general registers only -/

/-- Replacing the general registers can change no component but a register. -/
theorem changesOnly_of_registers {W : Component → Prop} {s : State} {v : Vector Byte 16}
    (h : ∀ q, ¬ W (.reg q) → ({ s with v := v } : State).getV q = s.getV q) : ChangesOnly W s { s with v := v } := by
  intro c hc
  cases c with
  | reg q => exact h q hc
  | _ => rfl

theorem setV_changesOnly (s : State) (r : Reg) (b : Byte) : ChangesOnly (fun c => c = .reg r) s (s.setV r b) :=
  changesOnly_of_registers fun q hq => s.getV_setV_ne (by rintro rfl; exact hq rfl) b

/-! ## The two-phase write of flag and result (42_load_and_alu.md R126) -/

theorem getV_flagThenResult_vf {x : Reg} (hx : x ≠ vf) (f : Byte) (g : State → Byte) (s : State) :
    (flagThenResult x f g s).getV vf = f := by
  rw [getV_flagThenResult, if_neg hx, if_pos rfl]

theorem flagThenResult_changesOnly (x : Reg) (f : Byte) (g : State → Byte) (s : State) :
    ChangesOnly (fun c => c = .reg x ∨ c = .reg vf) s (flagThenResult x f g s) := by
  refine changesOnly_of_registers fun q hq => (getV_flagThenResult x f g s q).trans ?_
  rw [if_neg (by rintro rfl; exact hq (.inl rfl)), if_neg (by rintro rfl; exact hq (.inr rfl))]

theorem toNat_greaterFlag (a b : Byte) : (greaterFlag a b).toNat = if a.toNat > b.toNat then 1 else 0 := by
  by_cases h : a.toNat > b.toNat <;> simp [greaterFlag, flagByte, h]

/-- Subtraction modulo 256 (42_load_and_alu.md R129). -/
theorem toNat_byte_sub (a b : Byte) : (a - b).toNat = (a.toNat + 256 - b.toNat) % 256 := by
  have := b.isLt
  rw [BitVec.toNat_sub]
  omega

/-- Phase 2 subtracts the registers as phase 1 left them: an operand that is VF reads as the new flag. -/
theorem toNat_difference_readAgain (x m n : Reg) (f : Byte) (s : State) :
    ((flagThenResult x f (fun t => t.getV m - t.getV n) s).getV x).toNat =
      ((if vf = m then f else s.getV m).toNat + 256 - (if vf = n then f else s.getV n).toNat) % 256 := by
  rw [getV_flagThenResult, if_pos rfl, toNat_byte_sub, State.getV_setV, State.getV_setV]

/-! ## The instructions -/

theorem exec_ldImm (x : Reg) (kk : Byte) (s : State) : exec (.ldImm x kk) s = .next (s.setV x kk) := rfl

theorem exec_subReg (x y : Reg) (s : State) : exec (.subReg x y) s =
    .next (flagThenResult x (greaterFlag (s.getV x) (s.getV y)) (fun t => t.getV x - t.getV y) s) := rfl

theorem exec_subnReg (x y : Reg) (s : State) : exec (.subnReg x y) s =
    .next (flagThenResult x (greaterFlag (s.getV y) (s.getV x)) (fun t => t.getV y - t.getV x) s) := rfl

/-- Settles O33: one register write. -/
theorem loadImmediateWritesKK : Obligations.LoadImmediateWritesKK := fun x kk s =>
  ⟨_, exec_ldImm x kk s, s.getV_setV_same x kk, setV_changesOnly s x kk⟩

/-- Settles O37: the four aliasings are the four outcomes of `toNat_difference_readAgain` with minuend X, subtrahend Y. -/
theorem subWritesGreaterThenTheDifferenceReadAgain : Obligations.SubWritesGreaterThenTheDifferenceReadAgain := by
  refine fun x y s => ⟨_, exec_subReg x y s, ⟨fun hx => ?_, fun hx hy => ?_, ?_, ?_, ?_⟩, flagThenResult_changesOnly _ _ _ _⟩
  · rw [getV_flagThenResult_vf hx, toNat_greaterFlag]
  · rw [toNat_difference_readAgain, if_neg hx.symm, if_neg hy.symm]
  · rintro hx rfl
    rw [toNat_difference_readAgain, if_neg hx.symm, if_pos rfl, toNat_greaterFlag]
  · rintro rfl hy
    rw [toNat_difference_readAgain, if_pos rfl, if_neg hy.symm, toNat_greaterFlag]
  · rintro rfl rfl
    rw [toNat_difference_readAgain, Nat.add_sub_cancel_left]

/-- Settles O38: the four outcomes of `toNat_difference_readAgain` with minuend Y, subtrahend X. -/
theorem subnWritesGreaterThenTheReversedDifferenceReadAgain :
    Obligations.SubnWritesGreaterThenTheReversedDifferenceReadAgain := by
  refine fun x y s => ⟨_, exec_subnReg x y s, ⟨fun hx => ?_, fun hx hy => ?_, ?_, ?_, ?_⟩, flagThenResult_changesOnly _ _ _ _⟩
  · rw [getV_flagThenResult_vf hx, toNat_greaterFlag]
  · rw [toNat_difference_readAgain, if_neg hx.symm, if_neg hy.symm]
  · rintro hx rfl
    rw [toNat_difference_readAgain, if_neg hx.symm, if_pos rfl, toNat_greaterFlag]
  · rintro rfl hy
    rw [toNat_difference_readAgain, if_pos rfl, if_neg hy.symm, toNat_greaterFlag]
  · rintro rfl rfl
    rw [toNat_difference_readAgain, Nat.add_sub_cancel_left]

end Sys2Proof.Machine

/-! PROOFS. Clearing the screen (44_display.md R150). -/

namespace Sys2Proof.Machine

/-- Replacing the display and DIRTY can change no component but a cell or DIRTY. -/
theorem setDisp_setDirty_changesOnly (s : State) (d : Display) (b : Bool) :
    ChangesOnly (fun c => c = .dirty ∨ ∃ x y, c = .cell x y) s ((s.setDisp d).setDirty b) := by
  intro c hc
  cases c with
  | cell x y => exact absurd (.inr ⟨x, y, rfl⟩) hc
  | dirty => exact absurd (.inl rfl) hc
  | _ => rfl

theorem exec_cls (s : State) : exec .cls s = .next ((s.setDisp dispClear).setDirty true) := rfl

/-- Settles O47: the new display is the clear one, whatever the old one was. -/
theorem clearScreenTurnsEveryCellOff : Obligations.ClearScreenTurnsEveryCellOff := by
  refine fun s => ⟨_, exec_cls s, fun x y => ?_, State.setDirty_dirty _ true, setDisp_setDirty_changesOnly s dispClear true⟩
  rw [State.setDirty_disp, State.setDisp_disp, dispGet_dispClear]

end Sys2Proof.Machine

/-! PROOFS. Arming the key wait (45_timers_and_keys.md R163). -/

namespace Sys2Proof.Machine

theorem setWait_changesOnly (s : State) (w : Option Reg) : ChangesOnly (fun c => c = .wait) s (s.setWait w) := by
  intro c hc
  cases c with
  | wait => exact absurd rfl hc
  | _ => rfl

theorem exec_ldVxK (x : Reg) (s : State) : exec (.ldVxK x) s = .next (s.setWait (some x)) := rfl

/-- Settles O51: one write of WAIT, with no premise about the key latches. -/
theorem waitForKeyOnlyArmsTheWait : Obligations.WaitForKeyOnlyArmsTheWait := fun x s =>
  ⟨_, exec_ldVxK x s, s.setWait_wait (some x), setWait_changesOnly s (some x)⟩

end Sys2Proof.Machine

/-! PROOFS. Nothing stops: every instruction, every call of the host and every step completes (60_exceptions.md R170). -/

namespace Sys2Proof.Machine

/-- Each of the 44 arms answers a next state, so its meaning names the state itself. -/
theorem exec_completes (i : Instr) (s : State) : ∃ t, exec i s = .next t := by
  cases i <;> exact ⟨_, rfl⟩

theorem stepCycle_completes (s : State) : ∃ t, stepCycle s = .next t := by
  cases hwait : s.wait with
  | some r => exact ⟨_, stepCycle_of_wait hwait⟩
  | none =>
    rw [stepCycle_of_no_wait hwait]
    exact exec_completes _ _

theorem performCall_completes (call : HostCall) (s : State) : ∃ t, performCall call s = .next t := by
  cases call with
  | stepCycle => exact stepCycle_completes s
  | op o => exact ⟨performHostOp o s, rfl⟩

/-- Settles O12: a step is a call, and a call is the poll, a host operation or one instruction. -/
theorem noInstructionAndNoStepStops : Obligations.NoInstructionAndNoStepStops :=
  ⟨exec_completes, fun s => by rw [step_eq]; exact performCall_completes _ _⟩

end Sys2Proof.Machine

/-! PROOFS. The timers and the sound port (60_exceptions.md R176, R178; 45_timers_and_keys.md R162). -/

namespace Sys2Proof.Machine

/-! ## tick_timers -/

@[simp] theorem tickTimers_dt (s : State) : (tickTimers s).dt = tickTimer s.dt := rfl
@[simp] theorem tickTimers_st (s : State) : (tickTimers s).st = tickTimer s.st := rfl
@[simp] theorem tickTimers_dirty (s : State) : (tickTimers s).dirty = s.dirty := rfl

theorem tickTimers_changesOnly (s : State) : ChangesOnly (fun c => c = .dt ∨ c = .st) s (tickTimers s) := by
  intro c hc
  cases c with
  | dt => exact absurd (.inl rfl) hc
  | st => exact absurd (.inr rfl) hc
  | _ => rfl

/-- Settles O20: each timer is one `tickTimer`, whatever the other holds. -/
theorem tickDecrementsEachTimerDownToZero : Obligations.TickDecrementsEachTimerDownToZero := fun s =>
  ⟨toNat_tickTimer s.dt, toNat_tickTimer s.st, tickTimers_changesOnly s⟩

/-! ## sound_active -/

theorem soundActive_iff (s : State) : soundActive s = true ↔ 0 < s.st.toNat := by
  rw [soundActive, decide_eq_true_iff, gt_iff_lt, BitVec.lt_def]
  exact Iff.rfl

theorem exec_ldStVx (x : Reg) (s : State) : exec (.ldStVx x) s = .next (s.setSt (s.getV x)) := rfl

@[simp] theorem hostReset_st (s : State) : (hostReset s).st = 0 := rfl

/-- Settles O23: the port is read off ST, and FX18, the tick and the reset say what ST is. -/
theorem soundActiveFollowsTheSoundTimer : Obligations.SoundActiveFollowsTheSoundTimer := by
  refine fun s => ⟨soundActive_iff s, fun x => ⟨_, exec_ldStVx x s, ?_⟩, ?_, ?_⟩
  · rw [soundActive_iff, State.setSt_st, Nat.pos_iff_ne_zero]
  · rw [soundActive_iff, tickTimers_st, toNat_tickTimer, Nat.sub_pos_iff_lt, gt_iff_lt]
  · rw [← Bool.not_eq_true, soundActive_iff, hostReset_st]
    exact Nat.lt_irrefl 0

end Sys2Proof.Machine

/-! PROOFS. The key latches (60_exceptions.md R180). -/

namespace Sys2Proof.Machine

theorem setKeyLatch_changesOnly (s : State) (k : Reg) (b : Bool) :
    ChangesOnly (fun c => c = .key k) s (s.setKeyLatch k b) := by
  intro c hc
  cases c with
  | key q => exact (s.getKey_setKeyLatch k q b).trans (if_neg (by rintro rfl; exact hc rfl))
  | _ => rfl

theorem setKey_toNat (k : Reg) (down : Bool) (s : State) : setKey k.toNat down s = s.setKeyLatch k down := by
  obtain ⟨hout, -⟩ | ⟨q, hq, hset⟩ := setKey_cases k.toNat down s
  · have := k.isLt
    omega
  · rwa [BitVec.eq_of_toNat_eq (Int.ofNat_inj.1 hq)] at hset

theorem setKey_of_outside {index : Int} (h : index < 0 ∨ 16 ≤ index) (down : Bool) (s : State) :
    setKey index down s = s := by
  obtain ⟨-, hsame⟩ | ⟨q, hq, -⟩ := setKey_cases index down s
  · exact hsame
  · have := q.isLt
    omega

theorem setKey_dirty (index : Int) (down : Bool) (s : State) : (setKey index down s).dirty = s.dirty := by
  obtain ⟨-, h⟩ | ⟨q, -, h⟩ := setKey_cases index down s
  · rw [h]
  · rw [h, State.setKeyLatch_dirty]

/-- Settles O21: an index of range writes its own latch, any other index none. -/
theorem setKeyWritesOneLatchOrNothing : Obligations.SetKeyWritesOneLatchOrNothing := by
  refine fun s down => ⟨fun k => ?_, fun index h => setKey_of_outside h down s⟩
  rw [setKey_toNat]
  exact ⟨s.getKey_setKeyLatch_same k down, setKeyLatch_changesOnly s k down⟩

end Sys2Proof.Machine

/-! PROOFS. DIRTY: only the host clears it (60_exceptions.md R183). -/

namespace Sys2Proof.Machine

theorem clearDirty_changesOnly (s : State) : ChangesOnly (fun c => c = .dirty) s (clearDirty s) := by
  intro c hc
  cases c with
  | dirty => exact absurd rfl hc
  | _ => rfl

/-! ## The shared operations leave DIRTY alone -/

theorem advancePc_dirty (s : State) : s.advancePc.dirty = s.dirty := rfl

theorem skipIf_dirty (s : State) (c : Bool) : (s.skipIf c).dirty = s.dirty := by
  rw [State.skipIf_eq, State.setPc_dirty]

theorem memWriteBytes_dirty (s : State) (a : Nat) (bytes : List Byte) : (s.memWriteBytes a bytes).dirty = s.dirty := by
  obtain ⟨m, h⟩ := State.memWriteBytes_eq bytes s a
  rw [h, State.setMem_dirty]

theorem storeRegs_dirty (s : State) (n : Nat) : (s.storeRegs n).dirty = s.dirty := by
  obtain ⟨m, h⟩ := s.storeRegs_eq n
  rw [h, State.setMem_dirty]

theorem loadRegs_dirty (s : State) (n : Nat) : (s.loadRegs n).dirty = s.dirty := by
  obtain ⟨v, h⟩ := s.loadRegs_eq n
  rw [h]

theorem waitPoll_dirty (r : Reg) (s : State) : (waitPoll r s).dirty = s.dirty := by
  obtain ⟨-, h⟩ | ⟨k, -, h⟩ := waitPoll_cases r s
  · rw [h]
  · rw [h, State.setWait_dirty, State.setV_dirty]

/-! ## The engine keeps DIRTY set -/

/-- CLS and DRW set DIRTY, and no other instruction writes it. -/
theorem exec_dirty {i : Instr} {s t : State} (h : exec i s = .next t) : t.dirty = true ∨ t.dirty = s.dirty := by
  cases i with
  | cls | drw x y n => cases h; exact .inl rfl
  | seImm x kk | sneImm x kk | seReg x y n | sneReg x y n | skp x | sknp x => cases h; exact .inr (skipIf_dirty s _)
  | ldB x => cases h; exact .inr (memWriteBytes_dirty s _ _)
  | ldMemVx x => cases h; exact .inr (storeRegs_dirty s _)
  | ldVxMem x => cases h; exact .inr (loadRegs_dirty s _)
  | _ => cases h; exact .inr rfl

theorem exec_keeps_dirty {i : Instr} {s t : State} (hs : s.dirty = true) (h : exec i s = .next t) : t.dirty = true :=
  (exec_dirty h).elim id (·.trans hs)

theorem stepCycle_keeps_dirty {s t : State} (hs : s.dirty = true) (h : stepCycle s = .next t) : t.dirty = true := by
  cases hwait : s.wait with
  | some r =>
    rw [stepCycle_of_wait hwait] at h
    cases h
    exact (waitPoll_dirty r s).trans hs
  | none =>
    rw [stepCycle_of_no_wait hwait] at h
    exact exec_keeps_dirty ((advancePc_dirty s).trans hs) h

/-- Settles O22: `clear_dirty` is one write of DIRTY; everything else sets DIRTY or leaves it. -/
theorem clearDirtyClearsOnlyTheDirtyFlag : Obligations.ClearDirtyClearsOnlyTheDirtyFlag :=
  ⟨fun s => ⟨State.setDirty_dirty s false, clearDirty_changesOnly s⟩,
    fun _ _ _ => exec_keeps_dirty,
    fun _ _ => stepCycle_keeps_dirty,
    fun s hs => ⟨(tickTimers_dirty s).trans hs, fun index down => (setKey_dirty index down s).trans hs⟩⟩

end Sys2Proof.Machine

/-! PROOFS. load_rom: a run of byte writes over the reset state (70_reset_and_hazards.md R203). -/

namespace Sys2Proof.Machine

/-! ## Operations that write memory only -/

/-- Replacing the memory can change no component but a byte. -/
theorem changesOnly_of_memory {W : Component → Prop} {s : State} {m : Memory}
    (h : ∀ q, ¬ W (.byte q) → (s.setMem m).memRead q = s.memRead q) : ChangesOnly W s (s.setMem m) := by
  intro c hc
  cases c with
  | byte q => exact h q hc
  | _ => rfl

/-- A run of byte writes changes only the bytes it addresses. -/
theorem memWriteBytes_changesOnly (s : State) (a : Nat) (bytes : List Byte) :
    ChangesOnly (fun c => ∃ q, c = .byte q ∧ ∃ k < bytes.length, q % 4096 = (a + k) % 4096) s (s.memWriteBytes a bytes) := by
  obtain ⟨m, hm⟩ := State.memWriteBytes_eq bytes s a
  rw [hm]
  refine changesOnly_of_memory fun q hq => ?_
  rw [← hm]
  exact State.memRead_memWriteBytes_outside bytes s a q fun k hk he => hq ⟨q, rfl, k, hk, he⟩

theorem ChangesOnly.mono {W W' : Component → Prop} {s t : State} (h : ChangesOnly W s t) (hW : ∀ c, W c → W' c) :
    ChangesOnly W' s t := fun c hc => h c fun hw => hc (hW c hw)

/-! ## The two results of `load_rom` -/

@[simp] theorem loadRom_fst (image : Option (List Byte)) (s : State) : (loadRom image s).1 = loadRomState image s := rfl
@[simp] theorem loadRom_snd (image : Option (List Byte)) (s : State) : (loadRom image s).2 = loadRomSucceeds image := rfl

theorem loadRomSucceeds_iff (image : Option (List Byte)) :
    loadRomSucceeds image = true ↔ ∃ b, image = some b ∧ b.length ≤ 3584 := by
  cases image <;> simp [loadRomSucceeds]

theorem loadRomState_of_failure {image : Option (List Byte)} (h : loadRomSucceeds image = false) (s : State) :
    loadRomState image s = hostReset s := by
  obtain ⟨-, hreset⟩ | ⟨bytes, -, -, hsuccess, -⟩ := loadRomState_cases image s
  · exact hreset
  · exact absurd hsuccess (by simp [h])

theorem loadRomState_of_fits {bytes : List Byte} (h : bytes.length ≤ 3584) (s : State) :
    loadRomState (some bytes) s = (hostReset s).memWriteBytes 0x200 bytes := if_pos h

/-- Settles O19: an image that fits ends at the top of memory at the latest, so its addresses do not wrap. -/
theorem loadRomLoadsOrLeavesReset : Obligations.LoadRomLoadsOrLeavesReset := by
  refine fun image s => ⟨loadRomSucceeds_iff image, fun h => loadRomState_of_failure h s, ?_⟩
  rintro b rfl hb
  rw [loadRom_fst, loadRomState_of_fits hb]
  refine ⟨State.memRead_memWriteBytes b _ _ (by simp only [Config.memSize]; omega), ?_⟩
  refine (memWriteBytes_changesOnly (hostReset s) 0x200 b).mono ?_
  rintro c ⟨q, hq, k, hk, he⟩
  exact ⟨q, hq, by omega, by omega⟩

end Sys2Proof.Machine

/-! PROOFS. The reset values (70_reset_and_hazards.md R200; 10_state.md R30, R31). -/

namespace Sys2Proof.Machine

theorem memRead_hostReset (s : State) (a : Nat) : (hostReset s).memRead a = resetByte (a % 4096) := rfl

theorem resetByte_font {n : Nat} (h : n < 80) : resetByte (0x050 + n) = font.getD n 0 := by
  rw [resetByte, if_pos ⟨Nat.le_add_right _ n, Nat.add_lt_add_left h _⟩, Nat.add_sub_cancel_left]

theorem resetByte_outside_font {a : Nat} (h : ¬ (0x050 ≤ a ∧ a < 0x0A0)) : resetByte a = 0 := if_neg h

theorem hostReset_resetValues (s : State) : ResetValues (hostReset s) where
  registers r := Vector.getElem_replicate r.isLt
  index := rfl
  pc := hostReset_pc s
  sp := rfl
  stack j := Vector.getElem_replicate j.isLt
  dt := rfl
  st := hostReset_st s
  keys k := Vector.getElem_replicate k.isLt
  display := dispGet_dispClear
  dirty := rfl
  wait := hostReset_wait s
  fontBytes n hn := by rw [memRead_hostReset, Nat.mod_eq_of_lt (by omega), resetByte_font hn]
  otherBytes a ha hout := by rw [memRead_hostReset, Nat.mod_eq_of_lt ha, resetByte_outside_font hout]

/-- Settles O18: `State.reset` is what `reset()` makes of itself, since its own draws and schedule are kept. -/
theorem resetGivesEveryResetValue : Obligations.ResetGivesEveryResetValue :=
  ⟨hostReset_resetValues, hostReset_resetValues State.reset⟩

end Sys2Proof.Machine

/-! PROOFS. Decode and encode (30_encoding.md R61 to R65, R68, R69): the fields of each format read back, every word is the
encoding of the instruction it decodes to, and what follows for a statement about the words of a row. -/

namespace Sys2Proof

/-! ## The fields of a word built from its parts -/

section Fields

variable (f : Nibble) (x y : Reg) (n : Nibble) (kk : Byte) (nnn : Addr12)

@[simp] theorem fieldF_nnn : fieldF (f ++ nnn) = f := BitVec.extractLsb'_append_eq_left
@[simp] theorem fieldNNN_nnn : fieldNNN (f ++ nnn) = nnn := BitVec.extractLsb'_append_eq_right

@[simp] theorem fieldF_xkk : fieldF (f ++ x ++ kk) = f :=
  (BitVec.extractLsb'_append_eq_of_le (by decide)).trans BitVec.extractLsb'_append_eq_left
@[simp] theorem fieldX_xkk : fieldX (f ++ x ++ kk) = x :=
  (BitVec.extractLsb'_append_eq_of_le (by decide)).trans BitVec.extractLsb'_append_eq_right
@[simp] theorem fieldKK_xkk : fieldKK (f ++ x ++ kk) = kk := BitVec.extractLsb'_append_eq_right

@[simp] theorem fieldF_xyn : fieldF (f ++ x ++ y ++ n) = f :=
  (BitVec.extractLsb'_append_eq_of_le (by decide)).trans
    ((BitVec.extractLsb'_append_eq_of_le (by decide)).trans BitVec.extractLsb'_append_eq_left)
@[simp] theorem fieldX_xyn : fieldX (f ++ x ++ y ++ n) = x :=
  (BitVec.extractLsb'_append_eq_of_le (by decide)).trans
    ((BitVec.extractLsb'_append_eq_of_le (by decide)).trans BitVec.extractLsb'_append_eq_right)
@[simp] theorem fieldY_xyn : fieldY (f ++ x ++ y ++ n) = y :=
  (BitVec.extractLsb'_append_eq_of_le (by decide)).trans BitVec.extractLsb'_append_eq_right
@[simp] theorem fieldN_xyn : fieldN (f ++ x ++ y ++ n) = n := BitVec.extractLsb'_append_eq_right

end Fields

/-! ## A word is its fields, in each of the three formats -/

section Formats

variable {w : Word} {f n : Nibble} {kk : Byte}

theorem append_nnn (hf : fieldF w = f) : f ++ fieldNNN w = w := by
  subst hf
  exact BitVec.extractLsb'_append_extractLsb' (w := 4) (len := 12)

theorem append_xkk (hf : fieldF w = f) (hkk : fieldKK w = kk) : f ++ fieldX w ++ kk = w := by
  subst hf hkk
  have digits : fieldF w ++ fieldX w = w.extractLsb' 8 8 := BitVec.extractLsb'_append_extractLsb'_eq_extractLsb' rfl
  rw [digits]
  exact BitVec.extractLsb'_append_extractLsb' (w := 8) (len := 8)

theorem append_xyn (hf : fieldF w = f) (hn : fieldN w = n) : f ++ fieldX w ++ fieldY w ++ n = w := by
  subst hf hn
  have two : fieldF w ++ fieldX w = w.extractLsb' 8 8 := BitVec.extractLsb'_append_extractLsb'_eq_extractLsb' rfl
  have three : w.extractLsb' 8 8 ++ fieldY w = w.extractLsb' 4 12 := BitVec.extractLsb'_append_extractLsb'_eq_extractLsb' rfl
  rw [two, three]
  exact BitVec.extractLsb'_append_extractLsb' (w := 12) (len := 4)

end Formats

theorem wordOfBytes_highByte_lowByte (w : Word) : wordOfBytes (highByte w) (lowByte w) = w :=
  BitVec.extractLsb'_append_extractLsb' (w := 8) (len := 8)

/-! ## The three rows that leave words out -/

theorem wellFormed_sys {nnn : Addr12} : (Instr.sys nnn).wellFormed = true ↔ nnn ≠ 0x0E0#12 ∧ nnn ≠ 0x0EE#12 := by
  simp [Instr.wellFormed]

theorem wellFormed_undefEXKK {x : Reg} {kk : Byte} :
    (Instr.undefEXKK x kk).wellFormed = true ↔ kk ≠ 0x9E#8 ∧ kk ≠ 0xA1#8 := by
  simp [Instr.wellFormed, subOpcodesE]

theorem wellFormed_undefFXKK {x : Reg} {kk : Byte} : (Instr.undefFXKK x kk).wellFormed = true ↔
    kk ≠ 0x07#8 ∧ kk ≠ 0x0A#8 ∧ kk ≠ 0x15#8 ∧ kk ≠ 0x18#8 ∧ kk ≠ 0x1E#8 ∧ kk ≠ 0x29#8 ∧ kk ≠ 0x33#8 ∧ kk ≠ 0x55#8 ∧
      kk ≠ 0x65#8 := by
  simp [Instr.wellFormed, subOpcodesF]

/-! ## Decoding an encoded instruction -/

/-- SYS takes the words of family 0 that CLS and RET leave (30_encoding.md R65). -/
theorem decodeFamily0_sys {nnn : Addr12} (h : (Instr.sys nnn).wellFormed = true) :
    decodeFamily0 (0x0#4 ++ nnn) = .sys nnn := by
  obtain ⟨hE0, hEE⟩ := wellFormed_sys.1 h
  have hcls : ¬ (0x0#4 ++ nnn : Word) = 0x00E0 := fun e => hE0 ((fieldNNN_nnn 0x0 nnn).symm.trans (congrArg fieldNNN e))
  have hret : ¬ (0x0#4 ++ nnn : Word) = 0x00EE := fun e => hEE ((fieldNNN_nnn 0x0 nnn).symm.trans (congrArg fieldNNN e))
  rw [decodeFamily0, if_neg hcls, if_neg hret, fieldNNN_nnn]

theorem decodeWord_encode {i : Instr} (h : i.wellFormed = true) : decodeWord (encode i) = i := by
  cases i with
  | cls | ret => decide
  | sys nnn => simp [encode, decodeWord, decodeFamily0_sys h]
  | jp nnn | call nnn | ldI nnn | jpV0 nnn => simp [encode, decodeWord]
  | seImm x kk | sneImm x kk | ldImm x kk | addImm x kk | rnd x kk => simp [encode, decodeWord]
  | seReg x y n | sneReg x y n | drw x y n => simp [encode, decodeWord]
  | skp x | sknp x => simp [encode, decodeWord, decodeFamilyE]
  | undefEXKK x kk =>
    simp [encode, decodeWord, decodeFamilyE, wellFormed_undefEXKK.1 h]
  | ldVxDt x | ldVxK x | ldDtVx x | ldStVx x | addI x | ldF x | ldB x | ldMemVx x | ldVxMem x =>
    simp [encode, decodeWord, decodeFamilyF]
  | undefFXKK x kk =>
    simp [encode, decodeWord, decodeFamilyF, wellFormed_undefFXKK.1 h]
  | _ => simp [encode, decodeWord, decodeFamily8]

/-- Settles O1: the two bytes join to the encoded word again, and `decodeWord_encode` reads it. -/
theorem decodeOfEncodedBytesIsTheInstruction : Obligations.DecodeOfEncodedBytesIsTheInstruction := by
  intro i rest h
  simp only [encodeBytes, List.cons_append, List.nil_append, decode, wordOfBytes_highByte_lowByte, decodeWord_encode h]

/-! ## Encoding a decoded word -/

/-- `w` is the word of the well-formed instruction `i`. -/
def StandsFor (w : Word) (i : Instr) : Prop := i.wellFormed = true ∧ encode i = w

theorem StandsFor.ite {w : Word} {c : Prop} [Decidable c] {a b : Instr} (ha : c → StandsFor w a) (hb : ¬ c → StandsFor w b) :
    StandsFor w (if c then a else b) := iteInduction (motive := StandsFor w) ha hb

/-- The last row of a decode by one hex digit. -/
theorem nibble_eq_fifteen {k : Nibble} (h : k ∉ [0x0, 0x1, 0x2, 0x3, 0x4, 0x5, 0x6, 0x7, 0x8, 0x9, 0xA, 0xB, 0xC, 0xD, 0xE]) :
    k = 0xF := by
  revert k
  decide

section Families

variable {w : Word}

theorem decodeFamily0_standsFor (h : fieldF w = 0x0) : StandsFor w (decodeFamily0 w) := by
  have hw : 0x0#4 ++ fieldNNN w = w := append_nnn h
  refine .ite (fun hcls => ⟨rfl, hcls.symm⟩) fun hcls => .ite (fun hret => ⟨rfl, hret.symm⟩) fun hret =>
    ⟨wellFormed_sys.2 ⟨fun e => hcls ?_, fun e => hret ?_⟩, hw⟩
  all_goals
    rw [← hw, e]
    rfl

theorem decodeFamily8_standsFor (h : fieldF w = 0x8) : StandsFor w (decodeFamily8 w) := by
  iterate 15 refine .ite (fun hn => ⟨rfl, append_xyn h hn⟩) fun _ => ?_
  refine ⟨rfl, append_xyn h (nibble_eq_fifteen ?_)⟩
  simp only [List.mem_cons, List.not_mem_nil, or_false, not_or]
  and_intros <;> assumption

theorem decodeFamilyE_standsFor (h : fieldF w = 0xE) : StandsFor w (decodeFamilyE w) :=
  .ite (fun hkk => ⟨rfl, append_xkk h hkk⟩) fun h1 => .ite (fun hkk => ⟨rfl, append_xkk h hkk⟩) fun h2 =>
    ⟨wellFormed_undefEXKK.2 ⟨h1, h2⟩, append_xkk h rfl⟩

theorem decodeFamilyF_standsFor (h : fieldF w = 0xF) : StandsFor w (decodeFamilyF w) := by
  iterate 9 refine .ite (fun hkk => ⟨rfl, append_xkk h hkk⟩) fun _ => ?_
  refine ⟨wellFormed_undefFXKK.2 ?_, append_xkk h rfl⟩
  and_intros <;> assumption

end Families

/-- A word stands for what it decodes to: the sixteen families of 30_encoding.md R64, one branch each. -/
theorem decodeWord_standsFor (w : Word) : StandsFor w (decodeWord w) :=
  .ite decodeFamily0_standsFor fun h0 =>
  .ite (fun h => ⟨rfl, append_nnn h⟩) fun h1 =>
  .ite (fun h => ⟨rfl, append_nnn h⟩) fun h2 =>
  .ite (fun h => ⟨rfl, append_xkk h rfl⟩) fun h3 =>
  .ite (fun h => ⟨rfl, append_xkk h rfl⟩) fun h4 =>
  .ite (fun h => ⟨rfl, append_xyn h rfl⟩) fun h5 =>
  .ite (fun h => ⟨rfl, append_xkk h rfl⟩) fun h6 =>
  .ite (fun h => ⟨rfl, append_xkk h rfl⟩) fun h7 =>
  .ite decodeFamily8_standsFor fun h8 =>
  .ite (fun h => ⟨rfl, append_xyn h rfl⟩) fun h9 =>
  .ite (fun h => ⟨rfl, append_nnn h⟩) fun hA =>
  .ite (fun h => ⟨rfl, append_nnn h⟩) fun hB =>
  .ite (fun h => ⟨rfl, append_xkk h rfl⟩) fun hC =>
  .ite (fun h => ⟨rfl, append_xyn h rfl⟩) fun hD =>
  .ite decodeFamilyE_standsFor fun hE =>
    decodeFamilyF_standsFor (nibble_eq_fifteen (by
      simp only [List.mem_cons, List.not_mem_nil, or_false, not_or]
      exact ⟨h0, h1, h2, h3, h4, h5, h6, h7, h8, h9, hA, hB, hC, hD, hE⟩))

/-- Settles O2: family by family, a word is its fields joined again. -/
theorem encodeOfDecodedWordIsTheWord : Obligations.EncodeOfDecodedWordIsTheWord := decodeWord_standsFor

/-- To show a statement of every word and what it decodes to, show it of every well-formed instruction and its encoding. -/
theorem forall_word_of_forall_instr {P : Word → Instr → Prop} (h : ∀ i : Instr, i.wellFormed = true → P (encode i) i)
    (w : Word) : P w (decodeWord w) := by
  obtain ⟨hwf, hw⟩ := decodeWord_standsFor w
  have := h _ hwf
  rwa [hw] at this

/-! ## Rows of the opcode table -/

/-- Every encoded instruction lies in its own row: the family of lemmas `Laws.EncodesInItsRow`, put together. -/
theorem encodesInItsRow : ∀ i : Instr, Laws.EncodesInItsRow.Statement i
  | .cls => Laws.EncodesInItsRow.cls
  | .ret => Laws.EncodesInItsRow.ret
  | .sys nnn => Laws.EncodesInItsRow.sys nnn
  | .jp nnn => Laws.EncodesInItsRow.jp nnn
  | .call nnn => Laws.EncodesInItsRow.call nnn
  | .seImm x kk => Laws.EncodesInItsRow.seImm x kk
  | .sneImm x kk => Laws.EncodesInItsRow.sneImm x kk
  | .seReg x y n => Laws.EncodesInItsRow.seReg x y n
  | .ldImm x kk => Laws.EncodesInItsRow.ldImm x kk
  | .addImm x kk => Laws.EncodesInItsRow.addImm x kk
  | .ldReg x y => Laws.EncodesInItsRow.ldReg x y
  | .orReg x y => Laws.EncodesInItsRow.orReg x y
  | .andReg x y => Laws.EncodesInItsRow.andReg x y
  | .xorReg x y => Laws.EncodesInItsRow.xorReg x y
  | .addReg x y => Laws.EncodesInItsRow.addReg x y
  | .subReg x y => Laws.EncodesInItsRow.subReg x y
  | .shr x y => Laws.EncodesInItsRow.shr x y
  | .subnReg x y => Laws.EncodesInItsRow.subnReg x y
  | .shl x y => Laws.EncodesInItsRow.shl x y
  | .sneReg x y n => Laws.EncodesInItsRow.sneReg x y n
  | .ldI nnn => Laws.EncodesInItsRow.ldI nnn
  | .jpV0 nnn => Laws.EncodesInItsRow.jpV0 nnn
  | .rnd x kk => Laws.EncodesInItsRow.rnd x kk
  | .drw x y n => Laws.EncodesInItsRow.drw x y n
  | .skp x => Laws.EncodesInItsRow.skp x
  | .sknp x => Laws.EncodesInItsRow.sknp x
  | .ldVxDt x => Laws.EncodesInItsRow.ldVxDt x
  | .ldVxK x => Laws.EncodesInItsRow.ldVxK x
  | .ldDtVx x => Laws.EncodesInItsRow.ldDtVx x
  | .ldStVx x => Laws.EncodesInItsRow.ldStVx x
  | .addI x => Laws.EncodesInItsRow.addI x
  | .ldF x => Laws.EncodesInItsRow.ldF x
  | .ldB x => Laws.EncodesInItsRow.ldB x
  | .ldMemVx x => Laws.EncodesInItsRow.ldMemVx x
  | .ldVxMem x => Laws.EncodesInItsRow.ldVxMem x
  | .undef8XY8 x y => Laws.EncodesInItsRow.undef8XY8 x y
  | .undef8XY9 x y => Laws.EncodesInItsRow.undef8XY9 x y
  | .undef8XYA x y => Laws.EncodesInItsRow.undef8XYA x y
  | .undef8XYB x y => Laws.EncodesInItsRow.undef8XYB x y
  | .undef8XYC x y => Laws.EncodesInItsRow.undef8XYC x y
  | .undef8XYD x y => Laws.EncodesInItsRow.undef8XYD x y
  | .undef8XYF x y => Laws.EncodesInItsRow.undef8XYF x y
  | .undefEXKK x kk => Laws.EncodesInItsRow.undefEXKK x kk
  | .undefFXKK x kk => Laws.EncodesInItsRow.undefFXKK x kk

/-- Settles O3: a word is the encoding of what it decodes to, and encodings lie in their rows. -/
theorem decodedWordLiesInItsTableRow : Obligations.DecodedWordLiesInItsTableRow :=
  forall_word_of_forall_instr (P := fun w i => w &&& i.rowMask = i.rowMatch) encodesInItsRow

/-! ## Undefined words -/

/-- The undefined words by their fields (30_encoding.md R69). -/
theorem undefinedNumber_iff (w : Word) : Machine.UndefinedNumber w.toNat ↔
    (fieldF w = 0x8 ∧ (fieldN w = 0x8 ∨ fieldN w = 0x9 ∨ fieldN w = 0xA ∨ fieldN w = 0xB ∨ fieldN w = 0xC ∨ fieldN w = 0xD ∨
      fieldN w = 0xF)) ∨
    (fieldF w = 0xE ∧ fieldKK w ≠ 0x9E ∧ fieldKK w ≠ 0xA1) ∨
    (fieldF w = 0xF ∧ fieldKK w ≠ 0x07 ∧ fieldKK w ≠ 0x0A ∧ fieldKK w ≠ 0x15 ∧ fieldKK w ≠ 0x18 ∧ fieldKK w ≠ 0x1E ∧
      fieldKK w ≠ 0x29 ∧ fieldKK w ≠ 0x33 ∧ fieldKK w ≠ 0x55 ∧ fieldKK w ≠ 0x65) := by
  simp only [Machine.UndefinedNumber, ← fieldF_toNat, ← fieldN_toNat, ← fieldKK_toNat, ← BitVec.toNat_inj, ne_eq,
    BitVec.ofNat_eq_ofNat, BitVec.toNat_ofNat, Nat.reducePow, Nat.reduceMod]

theorem isUndefined_iff_encode {i : Instr} (h : i.wellFormed = true) :
    i.isUndefined = true ↔ Machine.UndefinedNumber (encode i).toNat := by
  rw [undefinedNumber_iff]
  cases i with
  | cls | ret => decide
  | undefEXKK x kk => simpa [Instr.isUndefined, encode] using wellFormed_undefEXKK.1 h
  | undefFXKK x kk => simpa [Instr.isUndefined, encode] using wellFormed_undefFXKK.1 h
  | _ => simp [Instr.isUndefined, encode]

/-- Settles O5: read off the encoding of each row. -/
theorem undefinedWordsAreThoseOfTheThreeFamilies : Obligations.UndefinedWordsAreThoseOfTheThreeFamilies :=
  forall_word_of_forall_instr (P := fun w i => i.isUndefined = true ↔ Machine.UndefinedNumber w.toNat)
    fun _ => isUndefined_iff_encode

/-- Settles O6: twenty words, each decoded by computation. -/
theorem writtenOutWordsDecode : Obligations.WrittenOutWordsDecode := by
  unfold Obligations.WrittenOutWordsDecode
  decide

end Sys2Proof

/-! PROOFS. The words that do nothing but advance pc (30_encoding.md R68; 40_control_flow.md R100). -/

namespace Sys2Proof.Machine

/-- Settles O26: SYS and the undefined rows have the identity for their meaning. -/
theorem noOpInstructionsCompleteUnchanged : Obligations.NoOpInstructionsCompleteUnchanged := fun _ _ _ _ _ =>
  ⟨rfl, rfl, rfl, rfl, rfl, rfl, rfl, rfl, rfl, rfl⟩

theorem exec_of_isUndefined {i : Instr} (h : i.isUndefined = true) (s : State) : exec i s = .next s := by
  cases i with
  | undef8XY8 | undef8XY9 | undef8XYA | undef8XYB | undef8XYC | undef8XYD | undef8XYF | undefEXKK | undefFXKK => rfl
  | _ => exact absurd h Bool.false_ne_true

/-- Family 0 but for CLS and RET is SYS (30_encoding.md R65). -/
theorem decodeWord_sys {w : Word} (hfam : w.toNat < 0x1000) (hcls : w.toNat ≠ 0x00E0) (hret : w.toNat ≠ 0x00EE) :
    decodeWord w = .sys (fieldNNN w) := by
  have hF : fieldF w = 0x0 := BitVec.eq_of_toNat_eq ((fieldF_toNat w).trans (Nat.div_eq_of_lt hfam))
  have hfamily : decodeWord w = decodeFamily0 w := if_pos hF
  rw [hfamily, decodeFamily0, if_neg fun e => hcls (congrArg BitVec.toNat e), if_neg fun e => hret (congrArg BitVec.toNat e)]

/-- Settles O25: the fetched word decodes to SYS or to an undefined row, and both are no-ops after the fetch's advance. -/
theorem noOpWordsOnlyAdvancePc : Obligations.NoOpWordsOnlyAdvancePc := by
  intro s hwait hword
  rw [stepCycle_of_no_wait hwait, ← State.advancePc_eq]
  rcases hword with ⟨hfam, hcls, hret⟩ | hundef
  · rw [decodeWord_sys hfam hcls hret]
    rfl
  · exact exec_of_isUndefined ((undefinedWordsAreThoseOfTheThreeFamilies s.fetchWord).2 hundef) _

end Sys2Proof.Machine

/-! PROOFS. Memory (20_memory.md): canonical lists are determined by their bytes, and every step keeps them canonical. -/

namespace Sys2Proof.Machine

/-! ## A canonical memory is its bytes -/

/-- An address no entry names reads the reset contents. -/
theorem Memory.read_of_unlisted {m : Memory} {a : Nat} (h : ∀ e ∈ m, e.1 ≠ a) : Memory.read m a = resetByte a := by
  induction m with
  | nil => rfl
  | cons e m ih =>
    rw [List.forall_mem_cons] at h
    rw [Memory.read, if_neg h.1, ih h.2]

theorem Memory.read_cons_same (a : Nat) (b : Byte) (m : Memory) : Memory.read ((a, b) :: m) a = b := if_pos rfl

theorem Memory.read_cons_ne {k a : Nat} (h : k ≠ a) (b : Byte) (m : Memory) :
    Memory.read ((k, b) :: m) a = Memory.read m a := if_neg h

/-- A canonical memory with a first entry: the rest is canonical and lies above it, and the entry is a byte below 4096 that
differs from the reset contents. -/
theorem Memory.wf_cons {a : Nat} {b : Byte} {m : Memory} :
    Memory.wf ((a, b) :: m) ↔ (∀ e ∈ m, a < e.1) ∧ a < 4096 ∧ b ≠ resetByte a ∧ Memory.wf m := by
  simp only [Memory.wf, List.pairwise_cons, List.forall_mem_cons]
  tauto

/-- Below its first entry a canonical memory reads the reset contents. -/
theorem Memory.read_below {a k : Nat} {b : Byte} {m : Memory} (hm : Memory.wf ((k, b) :: m)) (h : a < k) :
    Memory.read ((k, b) :: m) a = resetByte a := by
  obtain ⟨habove, -⟩ := Memory.wf_cons.1 hm
  exact Memory.read_of_unlisted (List.forall_mem_cons.2 ⟨h.ne', fun e he => (h.trans (habove e he)).ne'⟩)

/-- The least address at which two canonical memories could differ is that of a first entry, so the first entries agree. -/
theorem Memory.eq_of_read_eq {m n : Memory} (hm : Memory.wf m) (hn : Memory.wf n)
    (h : ∀ a, a < 4096 → Memory.read m a = Memory.read n a) : m = n := by
  induction m generalizing n with
  | nil =>
    cases n with
    | nil => rfl
    | cons f n =>
      obtain ⟨-, hlt, hne, -⟩ := Memory.wf_cons.1 hn
      exact absurd ((Memory.read_cons_same _ _ n).symm.trans (h _ hlt).symm) hne
  | cons e m ih =>
    obtain ⟨a, b⟩ := e
    obtain ⟨ha, halt, hane, hm'⟩ := Memory.wf_cons.1 hm
    cases n with
    | nil => exact absurd ((Memory.read_cons_same _ _ m).symm.trans (h _ halt)) hane
    | cons f n =>
      obtain ⟨k, c⟩ := f
      obtain ⟨hk, hklt, hkne, hn'⟩ := Memory.wf_cons.1 hn
      obtain hak | rfl | hka := Nat.lt_trichotomy a k
      · exact absurd ((Memory.read_cons_same a b m).symm.trans ((h a halt).trans (Memory.read_below hn hak))) hane
      · have hbc : b = c := by simpa only [Memory.read_cons_same] using h a halt
        have htail : ∀ q, q < 4096 → Memory.read m q = Memory.read n q := by
          intro q hq
          by_cases hqa : a = q
          · subst hqa
            rw [Memory.read_of_unlisted fun e he => (ha e he).ne', Memory.read_of_unlisted fun e he => (hk e he).ne']
          · simpa only [Memory.read_cons_ne hqa] using h q hq
        rw [hbc, ih hm' hn' htail]
      · exact absurd ((Memory.read_cons_same k c n).symm.trans ((h k hklt).symm.trans (Memory.read_below hm hka))) hkne

/-- Settles O15, by induction on the first list along the second. -/
theorem canonicalMemoriesWithEqualBytesAreEqual : Obligations.CanonicalMemoriesWithEqualBytesAreEqual :=
  fun _ _ => Memory.eq_of_read_eq

/-! ## A state is its components -/

theorem memRead_of_lt (s : State) {a : Nat} (h : a < 4096) : s.memRead a = Memory.read s.mem a := by
  rw [State.memRead, Nat.mod_eq_of_lt h]

/-- An array of sixteen is its entries by 4-bit number. -/
theorem vector16_ext {α : Type} {v w : Vector α 16} (h : ∀ r : Reg, v[r.toNat]'r.isLt = w[r.toNat]'r.isLt) : v = w :=
  Vector.ext fun n hn => by simpa [Nat.mod_eq_of_lt hn] using h (BitVec.ofNat 4 n)

/-- Settles O16: each array is its entries, and memory is its bytes by `Memory.eq_of_read_eq`. -/
theorem statesWithEqualComponentsAreEqual : Obligations.StatesWithEqualComponentsAreEqual := by
  intro s t hs ht h
  have hv : t.v = s.v := vector16_ext fun r => h (.reg r)
  have hstack : t.stack = s.stack := vector16_ext fun j => h (.stackEntry j)
  have hkey : t.key = s.key := vector16_ext fun k => h (.key k)
  have hdisp : t.disp = s.disp := disp_ext fun x _ y _ => h (.cell x y)
  have hmem : t.mem = s.mem := Memory.eq_of_read_eq ht hs fun a ha => by
    rw [← memRead_of_lt t ha, ← memRead_of_lt s ha]
    exact h (.byte a)
  have hi : t.i = s.i := h .index
  have hpc : t.pc = s.pc := h .pc
  have hsp : t.sp = s.sp := h .sp
  have hdt : t.dt = s.dt := h .dt
  have hst : t.st = s.st := h .st
  have hdirty : t.dirty = s.dirty := h .dirty
  have hwait : t.wait = s.wait := h .wait
  have hdraws : t.draws = s.draws := h .draws
  have hschedule : t.schedule = s.schedule := h .schedule
  cases s
  cases t
  simp_all only

/-! ## Read after write -/

theorem memWrite_changesOnly (s : State) (a : Nat) (b : Byte) :
    ChangesOnly (fun c => ∃ p, c = .byte p ∧ p % 4096 = a % 4096) s (s.memWrite a b) := by
  refine changesOnly_of_memory fun q hq => ?_
  rw [← State.memWrite, State.memRead_memWrite, if_neg fun e => hq ⟨q, rfl, e⟩]

/-- Settles O17: `memRead_memWrite` and its frame. -/
theorem memReadAfterMemWrite : Obligations.MemReadAfterMemWrite := fun s a q v =>
  ⟨fun h => (s.memRead_memWrite a q v).trans (if_pos h), memWrite_changesOnly s a v⟩

/-! ## The canonical form is kept -/

/-- Settles O14: the reset memory lists nothing. -/
theorem resetMemoryIsCanonical : Obligations.ResetMemoryIsCanonical := Memory.wf_nil

/-- Only FX33 and FX55 replace the list, and they do it by byte writes. -/
theorem wf_exec {i : Instr} {s t : State} (hs : Memory.wf s.mem) (h : exec i s = .next t) : Memory.wf t.mem := by
  cases i with
  | ldB x => cases h; exact State.wf_memWriteBytes _ hs _
  | ldMemVx x => cases h; exact State.wf_storeRegs hs _
  | ldVxMem x =>
    cases h
    obtain ⟨v, hv⟩ := s.loadRegs_eq (blockCount x)
    rw [hv]
    exact hs
  | seImm x kk | sneImm x kk | seReg x y n | sneReg x y n | skp x | sknp x => cases h; rw [State.skipIf_eq]; exact hs
  | _ => cases h; exact hs

theorem wf_stepCycle {s t : State} (hs : Memory.wf s.mem) (h : stepCycle s = .next t) : Memory.wf t.mem := by
  cases hwait : s.wait with
  | some r =>
    rw [stepCycle_of_wait hwait] at h
    cases h
    rwa [waitPoll_mem]
  | none =>
    rw [stepCycle_of_no_wait hwait] at h
    exact wf_exec (s := s.advancePc) hs h

theorem wf_performCall {call : HostCall} {s t : State} (hs : Memory.wf s.mem) (h : performCall call s = .next t) :
    Memory.wf t.mem := by
  cases call with
  | stepCycle => exact wf_stepCycle hs h
  | op o => cases h; exact wf_performHostOp o hs

/-- Settles O13: a step is a call, and each call keeps the form. -/
theorem stepKeepsMemoryCanonical : Obligations.StepKeepsMemoryCanonical := fun s _ hs h =>
  wf_performCall (s := s.setSchedule s.schedule.rest) hs h

end Sys2Proof.Machine

/-! PROOFS. The fetch, the scheduled call and the end of a run (30_encoding.md R66; 60_exceptions.md R186;
70_reset_and_hazards.md R215). -/

namespace Sys2Proof.Machine

/-! ## The fetched word -/

/-- Two bytes as a number, high byte first (20_memory.md R44). -/
theorem toNat_wordOfBytes (hi lo : Byte) : (wordOfBytes hi lo).toNat = hi.toNat * 256 + lo.toNat := by
  rw [wordOfBytes, BitVec.toNat_append, ← Nat.shiftLeft_add_eq_or_of_lt lo.isLt, Nat.shiftLeft_eq]

/-- Settles O7: the two reads of the fetch joined high byte first. -/
theorem fetchReadsTheWordAtPcBigEndian : Obligations.FetchReadsTheWordAtPcBigEndian := fun _ => toNat_wordOfBytes _ _

/-! ## One step -/

theorem head_of_cycleNext {s : State} (h : s.cycleNext = true) : s.schedule.head = .stepCycle := by
  unfold State.cycleNext at h
  split at h
  · assumption
  · exact absurd h Bool.false_ne_true

theorem step_of_cycleNext {s : State} (h : s.cycleNext = true) : step s = stepCycle s.takeCall := by
  rw [step_eq, head_of_cycleNext h]
  rfl

theorem step_of_op {s : State} {o : HostOp} (h : s.schedule.head = .op o) : step s = .next (performHostOp o s.takeCall) := by
  rw [step_eq, h]
  rfl

/-- Settles O9: the step is `step_cycle` of the state without the call, which fetches the same word. -/
theorem stepRunsTheDecodedInstruction : Obligations.StepRunsTheDecodedInstruction := by
  intro s i hwait hcycle hdecode
  have hi : decodeWord s.fetchWord = i := by simpa [decode_bytes_at_pc] using hdecode
  rw [step_of_cycleNext hcycle, stepCycle_of_no_wait (s := s.takeCall) hwait, ← hi]
  rfl

/-- Settles O10: by the schedule's first call. -/
theorem stepPerformsTheScheduledCall : Obligations.StepPerformsTheScheduledCall := fun _ =>
  ⟨fun _ => step_of_op, step_of_cycleNext, rfl, fun _ _ => rfl, rfl, rfl, fun _ => rfl, rfl⟩

theorem toNat_zextAddr (nnn : Addr12) : (zextAddr nnn).toNat = nnn.toNat := BitVec.toNat_setWidth_of_le (by decide)

/-- Settles O58: the jump goes back to where the fetch's advance left from. -/
theorem endedStateIsAFixedPointOfStepCycle : Obligations.EndedStateIsAFixedPointOfStepCycle := by
  rintro s ⟨hwait, -, nnn, hdecode, hnnn⟩
  have htarget : zextAddr nnn = s.pc := BitVec.eq_of_toNat_eq ((toNat_zextAddr nnn).trans hnnn)
  rw [stepCycle_of_no_wait hwait, hdecode]
  exact congrArg (fun w => Host.Outcome.next (s.setPc w)) htarget

/-! ## The calls a schedule stands for -/

/-- A call does not touch the schedule. -/
theorem performCall_schedule {call : HostCall} {s t : State} (h : performCall call s = .next t) : t.schedule = s.schedule := by
  have hself : performCall call s = .next (t.setSchedule s.schedule) := performCall_setSchedule h s.schedule
  rw [h, Host.Outcome.next.injEq] at hself
  rw [hself, State.setSchedule_schedule]

namespace Schedule

/-- The listed calls come first, in order. -/
theorem calls_listed (calls : List HostCall) (l : LaterCalls) {n : Nat} (h : n < calls.length) :
    (mk calls l).calls n = calls[n] := by
  induction calls generalizing n with
  | nil => exact absurd h (Nat.not_lt_zero n)
  | cons call calls ih =>
    cases n with
    | zero => rfl
    | succ n => exact ih (Nat.lt_of_succ_lt_succ h)

/-- After the listed calls come those of a schedule that lists none. -/
theorem calls_after_listed (calls : List HostCall) (l : LaterCalls) (n : Nat) :
    (mk calls l).calls (calls.length + n) = (mk [] l).calls n := by
  induction calls with
  | nil => rw [List.length_nil, Nat.zero_add]
  | cons call calls ih => rw [List.length_cons, Nat.add_right_comm, calls_succ, rest_cons, ih]

theorem calls_stepping (n : Nat) : (mk [] (.repeating [])).calls n = .stepCycle := by
  induction n with
  | zero => rfl
  | succ n ih => exact ih

theorem calls_free (k n : Nat) : (mk [] (.free k)).calls n = Config.hostCall (k + n) := by
  induction n generalizing k with
  | zero => rfl
  | succ n ih => rw [calls_succ, rest_free, ih, Nat.add_right_comm, Nat.add_assoc]

/-- Repeating a list and listing it once before are the same calls. -/
theorem calls_repeating_eq_listed {again : List HostCall} (h : again ≠ []) (n : Nat) :
    (mk [] (.repeating again)).calls n = (mk again (.repeating again)).calls n := by
  cases again with
  | nil => exact absurd rfl h
  | cons call again => cases n <;> rfl

/-- By strong induction: a position beyond the list is the position one round earlier. -/
theorem calls_repeating {again : List HostCall} (h : again ≠ []) (n : Nat) :
    again[n % again.length]? = some ((mk [] (.repeating again)).calls n) := by
  have hpos : 0 < again.length := List.length_pos_of_ne_nil h
  induction n using Nat.strong_induction_on with
  | _ n ih =>
    rw [calls_repeating_eq_listed h]
    obtain hlt | hge := Nat.lt_or_ge n again.length
    · rw [Nat.mod_eq_of_lt hlt, calls_listed _ _ hlt, List.getElem?_eq_getElem hlt]
    · obtain ⟨m, rfl⟩ := Nat.exists_eq_add_of_le hge
      rw [calls_after_listed, Nat.add_mod_left]
      exact ih m (Nat.lt_add_of_pos_left hpos)

end Schedule

/-- Settles O11: no call writes the schedule, and the order it stands for is read off part by part. -/
theorem everyStepTakesOneCallFromTheSchedule : Obligations.EveryStepTakesOneCallFromTheSchedule := by
  refine ⟨fun s t h => ?_, fun c n hn => ?_, fun calls again n h => ?_, fun calls n => ?_, fun calls k n => ?_⟩
  · rw [step_eq] at h
    exact performCall_schedule h
  · rw [List.getElem?_eq_getElem hn, ← Schedule.calls_listed c.next c.later hn]
  · rw [Schedule.calls_after_listed, Schedule.calls_repeating h]
  · rw [Schedule.calls_after_listed, Schedule.calls_stepping]
  · rw [Schedule.calls_after_listed, Schedule.calls_free]

/-! ## Runs -/

/-- The state a call leaves; every call completes, so the other outcomes do not occur. -/
def afterCall (call : HostCall) (s : State) : State :=
  match performCall call s with
  | .next t => t
  | .fault _ => s
  | .refused _ => s

theorem performCall_eq_afterCall (call : HostCall) (s : State) : performCall call s = .next (afterCall call s) := by
  obtain ⟨t, ht⟩ := performCall_completes call s
  rw [afterCall, ht]

/-- The run from `s` under the calls `calls`. -/
def runUnder (calls : Nat → HostCall) (s : State) : Nat → State
  | 0 => s
  | n + 1 => afterCall (calls n) (runUnder calls s n)

theorem hostRun_runUnder (calls : Nat → HostCall) (s : State) : HostRun calls (runUnder calls s) := fun _ =>
  performCall_eq_afterCall _ _

theorem eq_runUnder {calls : Nat → HostCall} {run : Nat → State} (h : HostRun calls run) : run = runUnder calls (run 0) := by
  funext n
  induction n with
  | zero => rfl
  | succ n ih =>
    have hn := h n
    rw [performCall_eq_afterCall, Host.Outcome.next.injEq, ih] at hn
    exact hn.symm

/-- The machine's own run is its run under the schedule's calls, but for the schedule: both make the same call, and the rest
of the run is that of the rest of the schedule. -/
theorem stepRun_eq_hostRun (n : Nat) {run own : Nat → State} (hrun : HostRun (own 0).schedule.calls run) (hown : StepRun own)
    (h0 : own 0 = (run 0).setSchedule (own 0).schedule) : own n = (run n).setSchedule (own n).schedule := by
  induction n generalizing run own with
  | zero => exact h0
  | succ n ih =>
    have hfirst : own 1 = (run 1).setSchedule (own 0).schedule.rest := by
      have hcall : performCall (own 0).schedule.head (run 0) = .next (run 1) := hrun 0
      have hstep := hown 0
      rw [step_eq, h0, State.setSchedule_setSchedule, State.setSchedule_schedule, performCall_setSchedule hcall] at hstep
      exact (Host.Outcome.next.inj hstep).symm
    have hrest : (own 1).schedule = (own 0).schedule.rest := by rw [hfirst, State.setSchedule_schedule]
    refine ih (run := fun n => run (n + 1)) (own := fun n => own (n + 1)) (fun k => ?_) (fun k => hown (k + 1)) ?_
    · show performCall ((own 1).schedule.calls k) _ = _
      rw [hrest]
      exact hrun (k + 1)
    · show own 1 = (run 1).setSchedule (own 1).schedule
      rw [hrest]
      exact hfirst

theorem setSchedule_changesOnly (s : State) (c : Schedule) : ChangesOnly (fun c => c = .schedule) s (s.setSchedule c) := by
  intro p hp
  cases p with
  | schedule => exact absurd rfl hp
  | _ => rfl

/-- Settles O59: the run is `runUnder`, and the machine's own run follows it by `stepRun_eq_hostRun`. -/
theorem everyOrderOfHostCallsIsARun : Obligations.EveryOrderOfHostCallsIsARun := by
  refine ⟨fun calls s => ⟨runUnder calls s, rfl, hostRun_runUnder calls s, ?_⟩, ?_⟩
  · rintro other rfl hother
    exact eq_runUnder hother
  · rintro s run own hr hrun ho hown n
    subst ho
    rw [stepRun_eq_hostRun n hrun hown (by rw [hr, State.setSchedule_self])]
    exact setSchedule_changesOnly _ _

end Sys2Proof.Machine

/-! PROOFS. The read ports (60_exceptions.md R182; 10_state.md R19). -/

namespace Sys2Proof.Machine

/-- Settles O60: the key port lists the latches, and a read is the identity. -/
theorem readPortsShowTheStateAndChangeNothing : Obligations.ReadPortsShowTheStateAndChangeNothing := by
  refine fun s => ⟨rfl, s.key.length_toList, fun k => ?_, fun c _ => ?_⟩
  · rw [keyPort, Vector.getElem?_toList, Vector.getElem?_eq_getElem k.isLt]
    rfl
  · cases c <;> rfl

/-- In a list of rows of one width, element `y * w + x` is entry `x` of row `y`. -/
theorem getElem?_flatten_of_width {α : Type} {w : Nat} {rows : List (List α)} (hw : ∀ row ∈ rows, row.length = w) {x : Nat}
    (hx : x < w) (y : Nat) : rows.flatten[y * w + x]? = rows[y]?.bind (·[x]?) := by
  induction rows generalizing y with
  | nil => simp
  | cons row rows ih =>
    rw [List.forall_mem_cons] at hw
    obtain ⟨hrow, hrows⟩ := hw
    rw [List.flatten_cons]
    cases y with
    | zero => rw [Nat.zero_mul, Nat.zero_add, List.getElem?_append_left (hrow ▸ hx)]; rfl
    | succ y =>
      have hshift : (y + 1) * w + x = row.length + (y * w + x) := by rw [hrow, Nat.succ_mul]; omega
      rw [hshift, List.getElem?_append_right (Nat.le_add_right _ _), Nat.add_sub_cancel_left, ih hrows]
      rfl

/-- The display port's rows, each of 64 bytes. -/
theorem displayPort_eq_flatten (s : State) :
    displayPort s = (s.disp.toList.map fun row => row.toList.map fun cell => if cell then (1 : Byte) else 0).flatten :=
  List.flatMap_def

/-- Settles O24: 32 rows of 64 bytes, joined. -/
theorem displayPortIsRowMajor : Obligations.DisplayPortIsRowMajor := by
  intro s
  constructor
  · simp [displayPort]
  · intro x y hx hy
    rw [displayPort_eq_flatten, getElem?_flatten_of_width (w := 64) (by simp) hx]
    simp [hx, hy, dispGet, Nat.mod_eq_of_lt hx, Nat.mod_eq_of_lt hy]

end Sys2Proof.Machine

/-! PROOFS. Frames: what the writes of one field can change, and how frames compose. -/

namespace Sys2Proof.Machine

theorem Component.Same.trans {c : Component} {s t u : State} (hst : c.Same s t) (htu : c.Same t u) : c.Same s u := by
  cases c <;> exact Eq.trans htu hst

theorem ChangesOnly.trans {W : Component → Prop} {s t u : State} (hst : ChangesOnly W s t) (htu : ChangesOnly W t u) :
    ChangesOnly W s u := fun c hc => (hst c hc).trans (htu c hc)

theorem ChangesOnly.refl (W : Component → Prop) (s : State) : ChangesOnly W s s := fun c _ => by cases c <;> rfl

theorem setPc_changesOnly (s : State) (w : Word) : ChangesOnly (fun c => c = .pc) s (s.setPc w) := by
  intro c hc
  cases c with
  | pc => exact absurd rfl hc
  | _ => rfl

theorem setI_changesOnly (s : State) (w : Word) : ChangesOnly (fun c => c = .index) s (s.setI w) := by
  intro c hc
  cases c with
  | index => exact absurd rfl hc
  | _ => rfl

theorem setSp_changesOnly (s : State) (j : Reg) : ChangesOnly (fun c => c = .sp) s (s.setSp j) := by
  intro c hc
  cases c with
  | sp => exact absurd rfl hc
  | _ => rfl

theorem setStack_changesOnly (s : State) (j : Reg) (w : Word) :
    ChangesOnly (fun c => c = .stackEntry j) s (s.setStack j w) := by
  intro c hc
  cases c with
  | stackEntry q => exact (s.getStack_setStack j q w).trans (if_neg (by rintro rfl; exact hc rfl))
  | _ => rfl

theorem setDt_changesOnly (s : State) (b : Byte) : ChangesOnly (fun c => c = .dt) s (s.setDt b) := by
  intro c hc
  cases c with
  | dt => exact absurd rfl hc
  | _ => rfl

theorem setSt_changesOnly (s : State) (b : Byte) : ChangesOnly (fun c => c = .st) s (s.setSt b) := by
  intro c hc
  cases c with
  | st => exact absurd rfl hc
  | _ => rfl

theorem setDraws_changesOnly (s : State) (n : Nat) : ChangesOnly (fun c => c = .draws) s (s.setDraws n) := by
  intro c hc
  cases c with
  | draws => exact absurd rfl hc
  | _ => rfl

theorem skipIf_changesOnly (s : State) (c : Bool) : ChangesOnly (fun c => c = .pc) s (s.skipIf c) := by
  rw [State.skipIf_eq]
  exact setPc_changesOnly s _

theorem pushPc_changesOnly (s : State) : ChangesOnly (fun c => c = .sp ∨ c = .stackEntry s.sp) s s.pushPc :=
  .trans ((setStack_changesOnly s s.sp s.pc).mono fun _ => .inr) ((setSp_changesOnly _ (s.sp + 1)).mono fun _ => .inl)

theorem popPc_changesOnly (s : State) : ChangesOnly (fun c => c = .pc ∨ c = .sp) s s.popPc :=
  .trans ((setSp_changesOnly s (s.sp - 1)).mono fun _ => .inr) ((setPc_changesOnly _ _).mono fun _ => .inl)

/-- FX55's stores change only the bytes they address. -/
theorem storeRegs_changesOnly (s : State) (n : Nat) :
    ChangesOnly (fun c => ∃ a k, c = .byte a ∧ k < n ∧ a % 4096 = dataAddr s k % 4096) s (s.storeRegs n) := by
  obtain ⟨m, hm⟩ := s.storeRegs_eq n
  rw [hm]
  refine changesOnly_of_memory fun q hq => ?_
  rw [← hm]
  exact s.memRead_storeRegs_outside n q fun k hk he => hq ⟨q, k, rfl, hk, he⟩

/-- FX65's loads change only the registers below the count. -/
theorem loadRegs_changesOnly (s : State) {n : Nat} (hn : n ≤ 16) :
    ChangesOnly (fun c => ∃ k : Reg, c = .reg k ∧ k.toNat < n) s (s.loadRegs n) := by
  obtain ⟨v, hv⟩ := s.loadRegs_eq n
  rw [hv]
  refine changesOnly_of_registers fun q hq => ?_
  rw [← hv, State.getV_loadRegs s n hn, if_neg fun hlt => hq ⟨q, rfl, hlt⟩]

theorem blockCount_le (x : Reg) : blockCount x ≤ 16 := x.isLt

end Sys2Proof.Machine

/-! PROOFS. Control flow and skips (40_control_flow.md R101 to R104; 41_skips.md R110 to R116). -/

namespace Sys2Proof.Machine

/-! ## Jumps -/

theorem toNat_zextByte (b : Byte) : (zextByte b).toNat = b.toNat := BitVec.toNat_setWidth_of_le (by decide)

/-- The sum of a 12-bit and an 8-bit value fits in 16 bits. -/
theorem toNat_zextAddr_add_zextByte (nnn : Addr12) (b : Byte) :
    (zextAddr nnn + zextByte b).toNat = nnn.toNat + b.toNat := by
  have := nnn.isLt
  have := b.isLt
  rw [BitVec.toNat_add, toNat_zextAddr, toNat_zextByte]
  omega

/-- Settles O27: both jumps are one write of pc. -/
theorem jumpsGoToTheirTargets : Obligations.JumpsGoToTheirTargets := fun nnn s =>
  ⟨⟨_, rfl, toNat_zextAddr nnn, setPc_changesOnly s _⟩, ⟨_, rfl, toNat_zextAddr_add_zextByte nnn _, setPc_changesOnly s _⟩⟩

/-! ## Call and return -/

theorem exec_call (nnn : Addr12) (s : State) : exec (.call nnn) s = .next (s.pushPc.setPc (zextAddr nnn)) := rfl

theorem exec_ret (s : State) : exec .ret s = .next s.popPc := rfl

theorem call_changesOnly (nnn : Addr12) (s : State) :
    ChangesOnly (fun c => c = .pc ∨ c = .sp ∨ c = .stackEntry s.sp) s (s.pushPc.setPc (zextAddr nnn)) :=
  .trans ((pushPc_changesOnly s).mono fun _ => .inr) ((setPc_changesOnly _ _).mono fun _ => .inl)

/-- Settles O28: `pushPc_eq` and a write of pc. -/
theorem callPushesThePcAndJumps : Obligations.CallPushesThePcAndJumps := fun nnn s =>
  ⟨_, exec_call nnn s, s.getStack_setStack_same s.sp s.pc, BitVec.toNat_add s.sp 1, toNat_zextAddr nnn, call_changesOnly nnn s⟩

/-- Settles O29: `popPc_eq`, SP counting down modulo 16. -/
theorem retPopsThePc : Obligations.RetPopsThePc := by
  refine fun s => ⟨_, exec_ret s, ?_, rfl, popPc_changesOnly s⟩
  show (s.sp - 1).toNat = _
  rw [BitVec.toNat_sub, Nat.add_comm]
  rfl

theorem returnAddresses_succ (n : Nat) (s : State) :
    returnAddresses (n + 1) s = (returnAddresses n s.popPc).map (s.getStack (s.sp - 1) :: ·) := rfl

/-- Returns do not depend on pc: the first of them replaces it. -/
theorem returnAddresses_setPc (n : Nat) (s : State) (w : Word) : returnAddresses n (s.setPc w) = returnAddresses n s := by
  cases n <;> rfl

/-- `j` is one of the `n` stack entries from `sp` on, counted modulo 16. -/
def EntryWithin (sp : Reg) (n : Nat) (j : Reg) : Prop := (j - sp).toNat < n

/-- The entry below `n ≤ 15` further ones is none of them. -/
theorem not_entryWithin_succ {sp : Reg} {n : Nat} (hn : n ≤ 15) : ¬ EntryWithin (sp + 1) n sp := by
  unfold EntryWithin
  have : sp - (sp + 1) = 15 := by bv_omega
  rw [this]
  exact Nat.not_lt.2 hn

/-- An entry outside `n + 1` of them is not the first one, and not one of the others. -/
theorem not_entryWithin_of_succ {sp j : Reg} {n : Nat} (h : ¬ EntryWithin sp (n + 1) j) :
    sp ≠ j ∧ ¬ EntryWithin (sp + 1) n j := by
  unfold EntryWithin at *
  constructor
  · rintro rfl
    exact h (by simp)
  · bv_omega

/-- The first return after calls that left the entry at `s.sp` alone. -/
theorem returnAddresses_after (m : Nat) (t : State) (sp : Reg) :
    returnAddresses (m + 1) (t.setSp (sp + 1)) = (returnAddresses m (t.setSp sp)).map (t.getStack sp :: ·) := by
  have hpop : (t.setSp (sp + 1)).popPc = (t.setSp sp).setPc (t.getStack sp) := by
    rw [State.popPc_eq, State.setSp_sp, BitVec.add_sub_cancel]
    rfl
  rw [returnAddresses_succ, hpop, returnAddresses_setPc, State.setSp_sp, BitVec.add_sub_cancel, State.getStack_setSp]

/-- Nested calls of depth at most 16 write only the entries they push, and as many returns from there go to their return
addresses, last call first, and bring SP back to where it was. -/
theorem returnAddresses_of_nestCalls (calls : List (Word × Addr12)) (s : State) (hlen : calls.length ≤ 16) :
    ∃ t, nestCalls calls s = .next t ∧ (∀ j, ¬ EntryWithin s.sp calls.length j → t.getStack j = s.getStack j) ∧
      ∀ m, returnAddresses (calls.length + m) t =
        (returnAddresses m (t.setSp s.sp)).map ((calls.map (·.1)).reverse ++ ·) := by
  induction calls generalizing s with
  | nil => exact ⟨s, rfl, fun _ _ => rfl, fun m => by rw [List.length_nil, Nat.zero_add]; exact Option.map_id'.symm⟩
  | cons call calls ih =>
    obtain ⟨ra, nnn⟩ := call
    have hdepth : calls.length ≤ 15 := Nat.le_of_succ_le_succ hlen
    obtain ⟨t, hnest, hkeep, hret⟩ := ih ((s.setPc ra).pushPc.setPc (zextAddr nnn)) (Nat.le_succ_of_le hdepth)
    have hpushed : ∀ j, ((s.setPc ra).pushPc.setPc (zextAddr nnn)).getStack j = if s.sp = j then ra else s.getStack j :=
      fun j => (s.setPc ra).getStack_setStack s.sp j ra
    refine ⟨t, hnest, fun j hj => ?_, fun m => ?_⟩
    · obtain ⟨hne, hout⟩ := not_entryWithin_of_succ hj
      rw [hkeep j hout, hpushed, if_neg hne]
    · have hra : t.getStack s.sp = ra := by rw [hkeep s.sp (not_entryWithin_succ hdepth), hpushed, if_pos rfl]
      have hret' : returnAddresses (calls.length + (m + 1)) t =
          (returnAddresses (m + 1) (t.setSp (s.sp + 1))).map ((calls.map (·.1)).reverse ++ ·) := hret (m + 1)
      rw [List.length_cons, Nat.add_right_comm, Nat.add_assoc, hret', returnAddresses_after, hra, Option.map_map]
      simp [Function.comp_def]

/-- Settles O30: `returnAddresses_of_nestCalls` with no return left over. -/
theorem upToSixteenNestedCallsReturnCorrectly : Obligations.UpToSixteenNestedCallsReturnCorrectly := by
  intro calls s hlen
  obtain ⟨t, hnest, -, hret⟩ := returnAddresses_of_nestCalls calls s hlen
  refine ⟨t, hnest, ?_⟩
  rw [← Nat.add_zero calls.length, hret 0, returnAddresses, Option.map_some, List.append_nil]

/-! ## Skips -/

/-- A skip on a condition that means `p`: pc moves by 2 exactly when `p` holds, and nothing else changes. -/
theorem skipIf_effect (s : State) {c : Bool} {p : Prop} [Decidable p] (h : c = true ↔ p) :
    (s.skipIf c).pc.toNat = (if p then (s.pc.toNat + 2) % 65536 else s.pc.toNat) ∧
    ChangesOnly (fun c => c = .pc) s (s.skipIf c) := by
  refine ⟨?_, skipIf_changesOnly s c⟩
  rw [State.skipIf_eq, State.setPc_pc, apply_ite BitVec.toNat, BitVec.toNat_add]
  simp only [h]
  rfl

theorem byte_beq_iff {a b : Byte} : (a == b) = true ↔ a.toNat = b.toNat := beq_iff_eq.trans BitVec.toNat_inj.symm

theorem byte_bne_iff {a b : Byte} : (a != b) = true ↔ a.toNat ≠ b.toNat := bne_iff_ne.trans BitVec.toNat_inj.symm.not

/-- Settles O31: four conditions for `skipIf_effect`. -/
theorem registerSkipsAddTwoWhenTheirConditionHolds : Obligations.RegisterSkipsAddTwoWhenTheirConditionHolds :=
  fun _ _ _ _ s => ⟨⟨_, rfl, skipIf_effect s byte_beq_iff⟩, ⟨_, rfl, skipIf_effect s byte_bne_iff⟩,
    ⟨_, rfl, skipIf_effect s byte_beq_iff⟩, ⟨_, rfl, skipIf_effect s byte_bne_iff⟩⟩

theorem toNat_lowNibble (b : Byte) : (lowNibble b).toNat = b.toNat % 16 := by
  rw [lowNibble, BitVec.extractLsb'_toNat, Nat.shiftRight_zero]

theorem lowNibble_eq_ofNat (b : Byte) : lowNibble b = BitVec.ofNat 4 (b.toNat % 16) := by
  rw [← toNat_lowNibble, BitVec.ofNat_toNat, BitVec.setWidth_eq]

/-- Settles O32: the latch the low nibble names is the condition, or its negation. -/
theorem keySkipsAddTwoOnTheLatchOfTheLowNibble : Obligations.KeySkipsAddTwoOnTheLatchOfTheLowNibble := by
  intro x s
  rw [← lowNibble_eq_ofNat]
  exact ⟨⟨_, rfl, skipIf_effect s Iff.rfl⟩, ⟨_, rfl, skipIf_effect s (iff_of_eq (Bool.not_eq_true' _))⟩⟩

end Sys2Proof.Machine

/-! PROOFS. Registers, arithmetic and timers (42_load_and_alu.md R121 to R135; 45_timers_and_keys.md R160 to R162). -/

namespace Sys2Proof.Machine

/-! ## One register write, no flag -/

/-- Settles O34: one register write. -/
theorem addImmediateWrapsWithoutFlag : Obligations.AddImmediateWrapsWithoutFlag := by
  refine fun x kk s => ⟨_, rfl, ?_, setV_changesOnly s x _⟩
  rw [State.getV_setV_same, BitVec.toNat_add]

/-- Settles O35: one register write each, the logic taken bit by bit. -/
theorem moveAndLogicWriteOnlyTheirDestination : Obligations.MoveAndLogicWriteOnlyTheirDestination := by
  refine fun x y s => ⟨⟨_, rfl, s.getV_setV_same x _, setV_changesOnly s x _⟩, ⟨_, rfl, fun k => ?_, setV_changesOnly s x _⟩,
    ⟨_, rfl, fun k => ?_, setV_changesOnly s x _⟩, ⟨_, rfl, fun k => ?_, setV_changesOnly s x _⟩⟩
  · rw [State.getV_setV_same, BitVec.getLsbD_or]
  · rw [State.getV_setV_same, BitVec.getLsbD_and]
  · rw [State.getV_setV_same, BitVec.getLsbD_xor]

theorem rnd_changesOnly (s : State) (x : Reg) (b : Byte) :
    ChangesOnly (fun c => c = .reg x ∨ c = .draws) s (s.countDraw.setV x b) :=
  .trans ((setDraws_changesOnly s (s.draws + 1)).mono fun _ => .inr) ((setV_changesOnly _ x b).mono fun _ => .inl)

/-- Settles O40: what is ANDed with KK has no bit outside KK. -/
theorem randomWritesTheDrawnByteAndKK : Obligations.RandomWritesTheDrawnByteAndKK := by
  intro x kk s
  have hv : (s.countDraw.setV x (s.nextRandom &&& kk)).getV x = Config.randomByte s.draws &&& kk :=
    State.getV_setV_same _ x _
  refine ⟨_, rfl, hv, ?_, rfl, rnd_changesOnly s x _⟩
  rw [hv, BitVec.and_assoc, BitVec.and_not_self]
  exact BitVec.and_zero

/-- Settles O50: one write of a register or of a timer. -/
theorem timerInstructionsMoveOneByte : Obligations.TimerInstructionsMoveOneByte := fun x s =>
  ⟨⟨_, rfl, s.getV_setV_same x _, setV_changesOnly s x _⟩, ⟨_, rfl, s.setDt_dt _, setDt_changesOnly s _⟩,
    ⟨_, exec_ldStVx x s, s.setSt_st _, setSt_changesOnly s _⟩⟩

/-! ## Flag, then result (42_load_and_alu.md R126) -/

theorem toNat_flagByte (b : Bool) : (flagByte b).toNat = b.toNat := by cases b <;> rfl

theorem toNat_carryFlag (a b : Byte) : (carryFlag a b).toNat = if a.toNat + b.toNat > 255 then 1 else 0 := by
  by_cases h : a.toNat + b.toNat > 255 <;> simp [carryFlag, flagByte, h]

/-- Phase 2 adds the registers as phase 1 left them: an operand that is VF reads as the new flag. -/
theorem toNat_sum_readAgain (x m n : Reg) (f : Byte) (s : State) :
    ((flagThenResult x f (fun t => t.getV m + t.getV n) s).getV x).toNat =
      ((if vf = m then f else s.getV m).toNat + (if vf = n then f else s.getV n).toNat) % 256 := by
  rw [getV_flagThenResult, if_pos rfl, BitVec.toNat_add, State.getV_setV, State.getV_setV]

theorem exec_addReg (x y : Reg) (s : State) : exec (.addReg x y) s =
    .next (flagThenResult x (carryFlag (s.getV x) (s.getV y)) (fun t => t.getV x + t.getV y) s) := rfl

/-- Settles O36: the four aliasings are the four outcomes of `toNat_sum_readAgain`. -/
theorem addWritesCarryThenTheSumReadAgain : Obligations.AddWritesCarryThenTheSumReadAgain := by
  refine fun x y s => ⟨_, exec_addReg x y s, ⟨fun hx => ?_, fun hx hy => ?_, ?_, ?_, ?_⟩, flagThenResult_changesOnly _ _ _ _⟩
  · rw [getV_flagThenResult_vf hx, toNat_carryFlag]
  · rw [toNat_sum_readAgain, if_neg hx.symm, if_neg hy.symm]
  · rintro hx rfl
    rw [toNat_sum_readAgain, if_neg hx.symm, if_pos rfl, toNat_carryFlag]
  · rintro rfl hy
    rw [toNat_sum_readAgain, if_pos rfl, if_neg hy.symm, toNat_carryFlag]
  · rintro rfl rfl
    rw [toNat_sum_readAgain, if_pos rfl, toNat_carryFlag]
    split_ifs <;> rfl

theorem exec_shr (x y : Reg) (s : State) : exec (.shr x y) s =
    .next (flagThenResult x (shiftedOutRight (s.getV x)) (fun t => t.getV x >>> 1) s) := rfl

theorem exec_shl (x y : Reg) (s : State) : exec (.shl x y) s =
    .next (flagThenResult x (shiftedOutLeft (s.getV x)) (fun t => t.getV x <<< 1) s) := rfl

theorem toNat_shiftedOutRight (a : Byte) : (shiftedOutRight a).toNat = a.toNat % 2 := by
  rw [shiftedOutRight, toNat_flagByte, ← BitVec.testBit_toNat, Nat.toNat_testBit, Nat.pow_zero, Nat.div_one]

theorem toNat_shiftedOutLeft (a : Byte) : (shiftedOutLeft a).toNat = a.toNat / 128 := by
  have := a.isLt
  rw [shiftedOutLeft, toNat_flagByte, ← BitVec.testBit_toNat, Nat.toNat_testBit]
  omega

theorem toNat_byte_shiftRight_one (a : Byte) : (a >>> 1).toNat = a.toNat / 2 := by
  rw [BitVec.toNat_ushiftRight, Nat.shiftRight_one]

theorem toNat_byte_shiftLeft_one (a : Byte) : (a <<< 1).toNat = 2 * a.toNat % 256 := by
  rw [BitVec.toNat_shiftLeft, Nat.shiftLeft_eq, Nat.mul_comm]

/-- Phase 2 of an instruction with one operand, its destination: the operand is the new flag where the destination is VF. -/
theorem getV_flagThenResult_self (x : Reg) (f : Byte) (g : Byte → Byte) (s : State) :
    (flagThenResult x f (fun t => g (t.getV x)) s).getV x = g (if vf = x then f else s.getV x) := by
  rw [getV_flagThenResult, if_pos rfl, State.getV_setV]

/-- Settles O39: Y is no argument of either meaning; the two cases of X are those of `getV_flagThenResult_self`. -/
theorem shiftsWriteTheLostBitThenShiftVxAlone : Obligations.ShiftsWriteTheLostBitThenShiftVxAlone := by
  refine fun x y s => ⟨⟨_, exec_shr x y s, fun hx => ⟨?_, ?_⟩, ?_, flagThenResult_changesOnly _ _ _ _⟩,
    ⟨_, exec_shl x y s, fun hx => ⟨?_, ?_⟩, ?_, flagThenResult_changesOnly _ _ _ _⟩⟩
  · rw [getV_flagThenResult_vf hx, toNat_shiftedOutRight]
  · rw [getV_flagThenResult_self x _ (· >>> 1), if_neg hx.symm, toNat_byte_shiftRight_one]
  · rintro rfl
    rw [getV_flagThenResult_self vf _ (· >>> 1), if_pos rfl, toNat_byte_shiftRight_one, toNat_shiftedOutRight]
    omega
  · rw [getV_flagThenResult_vf hx, toNat_shiftedOutLeft]
  · rw [getV_flagThenResult_self x _ (· <<< 1), if_neg hx.symm, toNat_byte_shiftLeft_one]
  · rintro rfl
    have := (s.getV vf).isLt
    rw [getV_flagThenResult_self vf _ (· <<< 1), if_pos rfl, toNat_byte_shiftLeft_one, toNat_shiftedOutLeft]
    omega

end Sys2Proof.Machine

/-! PROOFS. The index register and memory (43_index_and_memory.md R140 to R146; 20_memory.md section 9). -/

namespace Sys2Proof.Machine

/-! ## I -/

theorem toNat_glyphAddr (d : Reg) : (glyphAddr d).toNat = 0x050 + 5 * d.toNat := by
  have := d.isLt
  rw [glyphAddr, BitVec.toNat_ofNat, Config.fontBase, Config.glyphBytes]
  omega

theorem exec_ldF (x : Reg) (s : State) : exec (.ldF x) s = .next (s.setI (glyphAddr (lowNibble (s.getV x)))) := rfl

/-- Settles O41: one write of I each. -/
theorem indexInstructionsWriteOnlyI : Obligations.IndexInstructionsWriteOnlyI := by
  refine fun nnn x s => ⟨⟨_, rfl, toNat_zextAddr nnn, setI_changesOnly s _⟩, ⟨_, rfl, ?_, setI_changesOnly s _⟩,
    ⟨_, exec_ldF x s, ?_, setI_changesOnly s _⟩⟩
  · rw [State.setI_i, BitVec.toNat_add, toNat_zextByte]
  · rw [State.setI_i, toNat_glyphAddr, toNat_lowNibble]

/-- The glyphs lie one after the other in the font (10_state.md R31). -/
theorem font_getD : ∀ d < 16, ∀ k < 5, font.getD (5 * d + k) 0 = (glyphs.getD d []).getD k 0 := by decide

/-- Settles O42: the five bytes are those of the font's glyph number V[X] mod 16. -/
theorem fontAddressReadsTheGlyphAfterReset : Obligations.FontAddressReadsTheGlyphAfterReset := by
  refine fun x s hmem => ⟨_, exec_ldF x s, fun k hk => ?_⟩
  have hd : (s.getV x).toNat % 16 < 16 := Nat.mod_lt _ (by decide)
  have hread : ∀ a, s.memRead a = resetByte (a % 4096) := fun a => by rw [State.memRead, hmem]; rfl
  rw [State.memRead_setI, State.setI_i, toNat_glyphAddr, toNat_lowNibble, hread, Nat.mod_eq_of_lt (by omega), Nat.add_assoc,
    resetByte_font (by omega), font_getD _ hd k hk]

/-! ## Stores and loads -/

theorem exec_ldB (x : Reg) (s : State) :
    exec (.ldB x) s = .next (s.memWriteBytes (dataAddr s 0) (decimalDigits (s.getV x))) := rfl

/-- A byte has three decimal digits, and each of them fits in a byte. -/
theorem toNat_decimalDigits (b : Byte) :
    (decimalDigits b).map BitVec.toNat = [b.toNat / 100, b.toNat / 10 % 10, b.toNat % 10] := by
  have := b.isLt
  simp only [decimalDigits, List.map_cons, List.map_nil, BitVec.toNat_ofNat, List.cons.injEq, and_true]
  omega

/-- Byte number `k` of FX33. -/
theorem toNat_memRead_ldB (s : State) (b : Byte) {k : Nat} (hk : k < 3) :
    ((s.memWriteBytes (dataAddr s 0) (decimalDigits b)).memRead (dataAddr s k)).toNat =
      [b.toNat / 100, b.toNat / 10 % 10, b.toNat % 10][k] := by
  have hread : (s.memWriteBytes (dataAddr s 0) (decimalDigits b)).memRead (dataAddr s k) = (decimalDigits b)[k] :=
    State.memRead_memWriteBytes (decimalDigits b) s (dataAddr s 0) (by simp [decimalDigits, Config.memSize]) k hk
  simp only [← toNat_decimalDigits, List.getElem_map, hread]
  rfl

/-- Settles O43: a run of three byte writes. -/
theorem bcdStoresThreeDecimalDigits : Obligations.BcdStoresThreeDecimalDigits := by
  refine fun x s => ⟨_, exec_ldB x s, toNat_memRead_ldB s _ (k := 0) (by decide), toNat_memRead_ldB s _ (k := 1) (by decide),
    toNat_memRead_ldB s _ (k := 2) (by decide), (memWriteBytes_changesOnly s _ _).mono ?_⟩
  rintro c ⟨a, ha, k, hk, he⟩
  exact ⟨a, k, ha, hk, he⟩

theorem exec_ldMemVx (x : Reg) (s : State) : exec (.ldMemVx x) s =
    .next ((s.storeRegs (blockCount x)).setI (s.i + BitVec.ofNat 16 (blockCount x))) := rfl

theorem exec_ldVxMem (x : Reg) (s : State) : exec (.ldVxMem x) s =
    .next ((s.loadRegs (blockCount x)).setI (s.i + BitVec.ofNat 16 (blockCount x))) := rfl

/-- FX55 and FX65 leave I past the block. -/
theorem toNat_add_blockCount (w : Word) (x : Reg) :
    (w + BitVec.ofNat 16 (blockCount x)).toNat = (w.toNat + x.toNat + 1) % 65536 := by
  have := x.isLt
  rw [BitVec.toNat_add, BitVec.toNat_ofNat, blockCount]
  omega

/-- Settles O44: the block of X + 1 stores, then the write of I. -/
theorem storeBlockWritesV0ToVxAndAdvancesI : Obligations.StoreBlockWritesV0ToVxAndAdvancesI := by
  refine fun x s => ⟨_, exec_ldMemVx x s, fun k hk => ?_, toNat_add_blockCount s.i x, .trans
    ((storeRegs_changesOnly s _).mono ?_) ((setI_changesOnly _ _).mono fun _ => .inl)⟩
  · have hstored := s.memRead_storeRegs _ (blockCount_le x) k.toNat (Nat.lt_succ_of_le hk)
    rwa [BitVec.ofNat_toNat, BitVec.setWidth_eq] at hstored
  · rintro c ⟨a, k, ha, hk, he⟩
    exact .inr ⟨a, k, ha, Nat.le_of_lt_succ hk, he⟩

/-- Settles O45: the block of X + 1 loads, then the write of I. -/
theorem loadBlockReadsV0ToVxAndAdvancesI : Obligations.LoadBlockReadsV0ToVxAndAdvancesI := by
  refine fun x s => ⟨_, exec_ldVxMem x s, fun k hk => ?_, toNat_add_blockCount s.i x, .trans
    ((loadRegs_changesOnly s (blockCount_le x)).mono ?_) ((setI_changesOnly _ _).mono fun _ => .inl)⟩
  · have hcount : k.toNat < blockCount x := Nat.lt_succ_of_le hk
    rw [State.getV_setI, State.getV_loadRegs s _ (blockCount_le x), if_pos hcount, dataAddr]
  · rintro c ⟨k, hc, hk⟩
    exact .inr ⟨k, hc, Nat.le_of_lt_succ hk⟩

/-! ## Stored bytes are fetched -/

/-- Addresses that agree modulo 4096 are the same byte (20_memory.md R42). -/
theorem memRead_congr (s : State) {a b : Nat} (h : a % 4096 = b % 4096) : s.memRead a = s.memRead b := by
  rw [State.memRead, State.memRead, h]

/-- The fetched word where pc names the address `a` modulo 4096. -/
theorem toNat_fetchWord_at (s : State) {a : Nat} (h : s.pc.toNat % 4096 = a % 4096) :
    s.fetchWord.toNat = (s.memRead a).toNat * 256 + (s.memRead (a + 1)).toNat := by
  rw [State.fetchWord, toNat_wordOfBytes, memRead_congr s h, memRead_congr s (Nat.ModEq.add_right 1 h)]

/-- Settles O46: pc is in the frame of both stores, so the fetch reads the bytes O44 and O43 say were stored. -/
theorem storedBytesAreFetchedByTheNextStep : Obligations.StoredBytesAreFetchedByTheNextStep := by
  constructor
  · intro x j k s hjk hkx hpc
    obtain ⟨t, ht, hbytes, -, hframe⟩ := storeBlockWritesV0ToVxAndAdvancesI x s
    have hsame : t.pc = s.pc := hframe .pc (by simp)
    refine ⟨t, ht, hsame, ?_⟩
    have hk : t.memRead (dataAddr s j.toNat + 1) = s.getV k := by
      rw [← hbytes k hkx, hjk]
      rfl
    rw [toNat_fetchWord_at t (hsame ▸ hpc), hbytes j (by omega), hk]
  · intro x s
    obtain ⟨t, ht, h0, h1, h2, hframe⟩ := bcdStoresThreeDecimalDigits x s
    have hsame : t.pc = s.pc := hframe .pc (by simp)
    refine ⟨t, ht, hsame, fun hpc => ?_, fun hpc => ?_⟩
    · rw [toNat_fetchWord_at t (hsame ▸ hpc), h0, ← h1]
      rfl
    · rw [toNat_fetchWord_at t (hsame ▸ hpc), h1, ← h2]
      rfl

end Sys2Proof.Machine

/-! PROOFS. The sprite unit (44_display.md R151 to R153). -/

namespace Sys2Proof.Machine

/-- The canvas a DXYN leaves. -/
def drawnCanvas (x y : Reg) (n : Nibble) (s : State) : Canvas :=
  drawRows (fun r => s.memRead (dataAddr s r)) (s.getV x).toNat (s.getV y).toNat n.toNat (s.disp, false)

/-- The cells the sprite of a DXYN covers. -/
def DrwCovers (x y : Reg) (n : Nibble) (s : State) : Nat → Nat → Prop :=
  SpriteCovers (fun r => s.memRead (dataAddr s r)) (s.getV x).toNat (s.getV y).toNat n.toNat

/-- The state a DXYN leaves. -/
def drawn (x y : Reg) (n : Nibble) (s : State) : State :=
  ((s.setV vf (flagByte (drawnCanvas x y n s).2)).setDisp (drawnCanvas x y n s).1).setDirty true

theorem exec_drw (x y : Reg) (n : Nibble) (s : State) : exec (.drw x y n) s = .next (drawn x y n s) := rfl

section Drawn

variable {x y : Reg} {n : Nibble} {s : State} {cx cy : Nat}

open Classical in
/-- Each covered cell is flipped once. -/
theorem dispGet_drawn :
    dispGet (drawn x y n s).disp cx cy = (dispGet s.disp cx cy ^^ decide (DrwCovers x y n s cx cy)) :=
  (drawRows_spec _ _ _ _ (Nat.le_trans n.isLt.le (by decide)) _).1 cx cy

theorem dispGet_drawn_of_covered (h : DrwCovers x y n s cx cy) :
    dispGet (drawn x y n s).disp cx cy = !dispGet s.disp cx cy := by
  simp [dispGet_drawn, h]

theorem dispGet_drawn_of_not_covered (h : ¬ DrwCovers x y n s cx cy) :
    dispGet (drawn x y n s).disp cx cy = dispGet s.disp cx cy := by
  simp [dispGet_drawn, h]

theorem collision_iff :
    (drawnCanvas x y n s).2 = true ↔ ∃ cx cy, DrwCovers x y n s cx cy ∧ dispGet s.disp cx cy = true := by
  refine (drawRows_spec _ _ _ _ (Nat.le_trans n.isLt.le (by decide)) _).2.trans ?_
  simp only [Bool.false_eq_true, false_or, DrwCovers]

/-- VF after the draw, V[X] and V[Y] read before it, also when one of them is VF. -/
theorem getV_vf_drawn : (drawn x y n s).getV vf = flagByte (drawnCanvas x y n s).2 := s.getV_setV_same vf _

theorem getV_vf_drawn_eq_one :
    (drawn x y n s).getV vf = 1 ↔ ∃ cx cy, DrwCovers x y n s cx cy ∧ dispGet s.disp cx cy = true := by
  rw [getV_vf_drawn, flagByte_eq_one, collision_iff]

theorem getV_vf_drawn_eq_zero :
    (drawn x y n s).getV vf = 0 ↔ ∀ cx cy, DrwCovers x y n s cx cy → dispGet s.disp cx cy = false := by
  rw [getV_vf_drawn, flagByte_eq_zero, ← Bool.not_eq_true, collision_iff]
  simp only [not_exists, not_and, Bool.not_eq_true]

theorem drawn_changesOnly :
    ChangesOnly (fun c => c = .reg vf ∨ c = .dirty ∨ ∃ cx cy, c = .cell cx cy) s (drawn x y n s) :=
  .trans ((setV_changesOnly s vf _).mono fun _ => .inl) ((setDisp_setDirty_changesOnly _ _ true).mono fun _ => .inr)

/-- A second DXYN covers the same cells when neither coordinate register is VF. -/
theorem drwCovers_drawn (hx : x ≠ vf) (hy : y ≠ vf) : DrwCovers x y n (drawn x y n s) = DrwCovers x y n s := by
  have hx' : (drawn x y n s).getV x = s.getV x := s.getV_setV_ne hx.symm _
  have hy' : (drawn x y n s).getV y = s.getV y := s.getV_setV_ne hy.symm _
  rw [DrwCovers, hx', hy']
  rfl

end Drawn

/-- Settles O48: the facts about `drawn`, one by one. -/
theorem drawFlipsTheCoveredCellsAndReportsCollision : Obligations.DrawFlipsTheCoveredCellsAndReportsCollision :=
  fun x y n s => ⟨_, exec_drw x y n s, ⟨fun _ _ => dispGet_drawn_of_covered, fun _ _ => dispGet_drawn_of_not_covered,
    getV_vf_drawn_eq_one.2, getV_vf_drawn_eq_zero.2⟩, rfl, drawn_changesOnly⟩

/-- Settles O49: both draws cover the same cells, so each is flipped twice, and the second draw meets a covered cell lit
where the first met it off. -/
theorem drawingTwiceRestoresTheDisplay : Obligations.DrawingTwiceRestoresTheDisplay := by
  intro x y n s hx hy
  have hcov : DrwCovers x y n (drawn x y n s) = DrwCovers x y n s := drwCovers_drawn hx hy
  refine ⟨_, _, exec_drw x y n s, exec_drw x y n _, fun cx cy => ?_, ?_⟩
  · by_cases h : DrwCovers x y n s cx cy
    · rw [dispGet_drawn_of_covered (hcov ▸ h), dispGet_drawn_of_covered h, Bool.not_not]
    · rw [dispGet_drawn_of_not_covered (hcov ▸ h), dispGet_drawn_of_not_covered h]
  · rw [getV_vf_drawn_eq_one, hcov]
    refine exists_congr fun cx => exists_congr fun cy => and_congr_right fun h => ?_
    rw [dispGet_drawn_of_covered h, Bool.not_eq_true']

end Sys2Proof.Machine

/-! PROOFS. Which instruction writes which component (10_state.md sections 1 to 5; 20_memory.md section 10). -/

namespace Sys2Proof.Machine

/-- The components an instruction may change, component by component. -/
def mayChange (i : Instr) : Component → Prop
  | .reg r => mayWriteReg i r
  | .index => writesIndex i = true
  | .pc => writesPc i = true
  | .sp => i = .ret ∨ ∃ nnn, i = .call nnn
  | .stackEntry _ => ∃ nnn, i = .call nnn
  | .dt => ∃ x, i = .ldDtVx x
  | .st => ∃ x, i = .ldStVx x
  | .cell _ _ | .dirty => i = .cls ∨ ∃ x y n, i = .drw x y n
  | .wait => ∃ x, i = .ldVxK x
  | .byte _ => ∃ x, i = .ldB x ∨ i = .ldMemVx x
  | .draws => ∃ x kk, i = .rnd x kk
  | .key _ | .schedule => False

theorem ChangesOnly.of_one {W : Component → Prop} {p : Component} {s t : State} (h : ChangesOnly (fun c => c = p) s t)
    (hp : W p) : ChangesOnly W s t :=
  h.mono fun _ hc => hc ▸ hp

theorem ChangesOnly.of_two {W : Component → Prop} {p q : Component} {s t : State}
    (h : ChangesOnly (fun c => c = p ∨ c = q) s t) (hp : W p) (hq : W q) : ChangesOnly W s t :=
  h.mono fun _ hc => hc.elim (· ▸ hp) (· ▸ hq)

/-- The frame of every instruction, from the frame of the writes it makes. -/
theorem exec_changesOnly {i : Instr} {s t : State} (h : exec i s = .next t) : ChangesOnly (mayChange i) s t := by
  cases i with
  | cls =>
    cases h
    refine (setDisp_setDirty_changesOnly s _ true).mono ?_
    rintro c (rfl | ⟨x, y, rfl⟩) <;> exact .inl rfl
  | drw x y n =>
    cases h
    refine (drawn_changesOnly (x := x) (y := y) (n := n)).mono ?_
    rintro c (rfl | rfl | ⟨cx, cy, rfl⟩)
    · exact rfl
    · exact .inr ⟨x, y, n, rfl⟩
    · exact .inr ⟨x, y, n, rfl⟩
  | ret => cases h; exact (popPc_changesOnly s).of_two rfl (.inl rfl)
  | call nnn =>
    cases h
    exact .trans ((pushPc_changesOnly s).of_two (.inr ⟨nnn, rfl⟩) ⟨nnn, rfl⟩) ((setPc_changesOnly _ _).of_one rfl)
  | jp nnn | jpV0 nnn => cases h; exact (setPc_changesOnly s _).of_one rfl
  | seImm x kk | sneImm x kk | seReg x y n | sneReg x y n | skp x | sknp x =>
    cases h; exact (skipIf_changesOnly s _).of_one rfl
  | ldImm x kk | addImm x kk | ldReg x y | orReg x y | andReg x y | xorReg x y | ldVxDt x =>
    cases h; exact (setV_changesOnly s x _).of_one rfl
  | addReg x y | subReg x y | subnReg x y | shr x y | shl x y =>
    cases h; exact (flagThenResult_changesOnly x _ _ s).of_two (.inl rfl) (.inr rfl)
  | rnd x kk => cases h; exact (rnd_changesOnly s x _).of_two rfl ⟨x, kk, rfl⟩
  | ldI nnn | addI x | ldF x => cases h; exact (setI_changesOnly s _).of_one rfl
  | ldVxK x => cases h; exact (setWait_changesOnly s _).of_one ⟨x, rfl⟩
  | ldDtVx x => cases h; exact (setDt_changesOnly s _).of_one ⟨x, rfl⟩
  | ldStVx x => cases h; exact (setSt_changesOnly s _).of_one ⟨x, rfl⟩
  | ldB x =>
    cases h
    refine (memWriteBytes_changesOnly s _ _).mono ?_
    rintro c ⟨a, rfl, -⟩
    exact ⟨x, .inl rfl⟩
  | ldMemVx x =>
    cases h
    refine .trans ((storeRegs_changesOnly s _).mono ?_) ((setI_changesOnly _ _).of_one rfl)
    rintro c ⟨a, k, rfl, -⟩
    exact ⟨x, .inr rfl⟩
  | ldVxMem x =>
    cases h
    refine .trans ((loadRegs_changesOnly s (blockCount_le x)).mono ?_) ((setI_changesOnly _ _).of_one rfl)
    rintro c ⟨k, rfl, hk⟩
    exact Nat.le_of_lt_succ hk
  | sys | undef8XY8 | undef8XY9 | undef8XYA | undef8XYB | undef8XYC | undef8XYD | undef8XYF | undefEXKK | undefFXKK =>
    cases h; exact .refl _ s

/-- CXKK counts one draw. -/
theorem exec_rnd_draws {x : Reg} {kk : Byte} {s t : State} (h : exec (.rnd x kk) s = .next t) : t.draws = s.draws + 1 := by
  cases h
  rfl

/-- Settles O54: the arrays' part of `exec_changesOnly`. -/
theorem onlyTheNamedInstructionsWriteEachArray : Obligations.OnlyTheNamedInstructionsWriteEachArray := by
  intro i s t h
  have frame := exec_changesOnly h
  refine ⟨fun hB hM a => frame (.byte a) ?_, fun hcls hdrw => ?_, fun hcall j => frame (.stackEntry j) ?_,
    fun k => frame (.key k) id, frame .schedule id⟩
  · rintro ⟨x, hi | hi⟩
    · exact hB x hi
    · exact hM x hi
  · have hno : ¬ (i = .cls ∨ ∃ x y n, i = .drw x y n) := by
      rintro (hi | ⟨x, y, n, hi⟩)
      · exact hcls hi
      · exact hdrw x y n hi
    exact ⟨disp_ext fun x _ y _ => frame (.cell x y) hno, frame .dirty hno⟩
  · exact fun ⟨nnn, hi⟩ => hcall nnn hi

/-- Settles O55: the registers' part of `exec_changesOnly`, and the count of CXKK. -/
theorem onlyTheNamedInstructionsWriteEachRegister : Obligations.OnlyTheNamedInstructionsWriteEachRegister := by
  intro i s t h
  have frame := exec_changesOnly h
  refine ⟨fun hpc => frame .pc (Bool.not_eq_true _ ▸ hpc), fun hI => frame .index (Bool.not_eq_true _ ▸ hI),
    fun hcall hret => frame .sp ?_, fun hdt => frame .dt fun ⟨x, hi⟩ => hdt x hi, fun hst => frame .st fun ⟨x, hi⟩ => hst x hi,
    fun hwait => frame .wait fun ⟨x, hi⟩ => hwait x hi, ?_⟩
  · rintro (hi | ⟨nnn, hi⟩)
    · exact hret hi
    · exact hcall nnn hi
  · by_cases hrnd : ∃ x kk, i = .rnd x kk
    · obtain ⟨x, kk, rfl⟩ := hrnd
      exact .inl ⟨exec_rnd_draws h, x, kk, rfl⟩
    · exact .inr ⟨frame .draws hrnd, fun x kk hi => hrnd ⟨x, kk, hi⟩⟩

/-- Settles O56: the general registers' part of `exec_changesOnly`. -/
theorem generalRegistersChangeOnlyAsNamed : Obligations.GeneralRegistersChangeOnlyAsNamed := fun _ _ _ r h hr =>
  exec_changesOnly h (.reg r) hr

end Sys2Proof.Machine

/-! PROOFS. No instruction reads ST, DIRTY or the schedule (60_exceptions.md section 4). -/

namespace Sys2Proof.Machine

/-- `s` with other values of what no instruction reads. -/
def State.withUnread (s : State) (b : Byte) (d : Bool) (l : Schedule) : State := ((s.setSt b).setDirty d).setSchedule l

namespace State

theorem skipIf_withUnread (s : State) (c : Bool) (b : Byte) (d : Bool) (l : Schedule) :
    (s.withUnread b d l).skipIf c = (s.skipIf c).withUnread b d l := by
  cases c <;> rfl

theorem memWriteBytes_withUnread (bytes : List Byte) (s : State) (a : Nat) (b : Byte) (d : Bool) (l : Schedule) :
    (s.withUnread b d l).memWriteBytes a bytes = (s.memWriteBytes a bytes).withUnread b d l := by
  induction bytes generalizing s a with
  | nil => rfl
  | cons byte bytes ih => exact ih (s.memWrite a byte) (a + 1)

theorem storeRegs_withUnread (s : State) (n : Nat) (b : Byte) (d : Bool) (l : Schedule) :
    (s.withUnread b d l).storeRegs n = (s.storeRegs n).withUnread b d l := by
  induction n with
  | zero => rfl
  | succ n ih => rw [storeRegs, ih]; rfl

theorem loadRegs_withUnread (s : State) (n : Nat) (b : Byte) (d : Bool) (l : Schedule) :
    (s.withUnread b d l).loadRegs n = (s.loadRegs n).withUnread b d l := by
  induction n with
  | zero => rfl
  | succ n ih => rw [loadRegs, ih]; rfl

theorem withUnread_changesOnly (s : State) (b : Byte) (d : Bool) (l : Schedule) :
    ChangesOnly (fun c => c = .st ∨ c = .dirty ∨ c = .schedule) s (s.withUnread b d l) := by
  intro c hc
  cases c with
  | st => exact absurd (.inl rfl) hc
  | dirty => exact absurd (.inr (.inl rfl)) hc
  | schedule => exact absurd (.inr (.inr rfl)) hc
  | _ => rfl

end State

/-- The same instruction does the same under other unread values: CLS and DRW set DIRTY themselves, FX18 sets ST. -/
theorem exec_withUnread {i : Instr} {s t : State} (h : exec i s = .next t) (b : Byte) (d : Bool) (l : Schedule) :
    ∃ b' d', exec i (s.withUnread b d l) = .next (t.withUnread b' d' l) := by
  cases i with
  | cls | drw x y n => cases h; exact ⟨b, true, rfl⟩
  | ldStVx x => cases h; exact ⟨s.getV x, d, rfl⟩
  | ldB x => cases h; exact ⟨b, d, congrArg Host.Outcome.next (State.memWriteBytes_withUnread _ s _ b d l)⟩
  | ldMemVx x =>
    cases h
    refine ⟨b, d, ?_⟩
    rw [exec_ldMemVx, State.storeRegs_withUnread]
    rfl
  | ldVxMem x =>
    cases h
    refine ⟨b, d, ?_⟩
    rw [exec_ldVxMem, State.loadRegs_withUnread]
    rfl
  | seImm x kk | sneImm x kk | seReg x y n | sneReg x y n | skp x | sknp x =>
    cases h; exact ⟨b, d, congrArg Host.Outcome.next (State.skipIf_withUnread s _ b d l)⟩
  | _ => cases h; exact ⟨b, d, rfl⟩

/-- Settles O57: `exec_withUnread`, and what `withUnread` leaves alone. -/
theorem noInstructionReadsSoundTimerDirtyOrSchedule : Obligations.NoInstructionReadsSoundTimerDirtyOrSchedule := by
  intro i s t b d l h
  obtain ⟨b', d', hu⟩ := exec_withUnread h b d l
  exact ⟨_, hu, State.withUnread_changesOnly t b' d' l⟩

end Sys2Proof.Machine

/-! PROOFS. The key wait (45_timers_and_keys.md R163, R164; 60_exceptions.md R185). -/

namespace Sys2Proof.Machine

/-- Settles O52: the poll's two lemmas, and the frame of its two writes. -/
theorem waitPollTakesTheLowestPressedKey : Obligations.WaitPollTakesTheLowestPressedKey := by
  refine fun r s hwait => ⟨fun hnone => ?_, fun k hk hlow => ⟨(s.setV r (k.setWidth 8)).setWait none, ?_, ?_, rfl, ?_⟩⟩
  · rw [stepCycle_of_wait hwait, waitPoll_of_none r hnone]
  · rw [stepCycle_of_wait hwait, waitPoll_of_lowest r hk hlow]
  · rw [State.getV_setWait, State.getV_setV_same, BitVec.toNat_setWidth_of_le (by decide)]
  · exact .trans ((setV_changesOnly s r _).mono fun _ => .inl) ((setWait_changesOnly _ none).mono fun _ => .inr)

theorem awaitingKey_eq_false {s : State} : s.awaitingKey = false ↔ s.wait = none :=
  Option.isSome_eq_false_iff.trans Option.isNone_iff_eq_none

/-- From RUNNING, FX0A alone arms the wait. -/
theorem awaitingKey_exec {i : Instr} {s t : State} (hs : s.wait = none) (h : exec i s = .next t) :
    t.awaitingKey = true ↔ ∃ x, i = .ldVxK x := by
  constructor
  · intro ht
    by_contra hno
    have hsame : t.wait = s.wait := exec_changesOnly h .wait hno
    rw [State.awaitingKey, hsame, hs] at ht
    exact Bool.false_ne_true ht
  · rintro ⟨x, rfl⟩
    cases h
    rfl

/-- From AWAITING_KEY, the poll ends the wait unless no key is down. -/
theorem awaitingKey_waitPoll {r : Reg} {s : State} (hs : s.wait = some r) :
    (waitPoll r s).awaitingKey = true ↔ ∀ k, s.getKey k = false := by
  obtain ⟨hnone, hpoll⟩ | ⟨k, hsome, hpoll⟩ := waitPoll_cases r s
  · have hup : ∀ k, s.getKey k = false := fun k => by
      simpa using lowestKey_none.1 hnone k.toNat k.isLt
    rw [hpoll, State.awaitingKey, hs]
    exact iff_of_true rfl hup
  · obtain ⟨-, hdown, -⟩ := (lowestKey_some (Nat.le_refl 16)).1 hsome
    rw [hpoll]
    exact iff_of_false Bool.false_ne_true fun hup => Bool.false_ne_true ((hup k).symm.trans hdown)

theorem setKey_wait (index : Int) (down : Bool) (s : State) : (setKey index down s).wait = s.wait := by
  obtain ⟨-, h⟩ | ⟨q, -, h⟩ := setKey_cases index down s
  · rw [h]
  · rw [h, State.setKeyLatch_wait]

theorem loadRomState_wait (image : Option (List Byte)) (s : State) : (loadRomState image s).wait = none := by
  obtain ⟨-, h⟩ | ⟨bytes, -, -, -, h⟩ := loadRomState_cases image s
  · rw [h, hostReset_wait]
  · obtain ⟨m, hm⟩ := State.memWriteBytes_eq bytes (hostReset s) Config.romBase
    rw [h, hm, State.setMem_wait, hostReset_wait]

/-- Settles O53: the two states of the machine are the two branches of `step_cycle`. -/
theorem waitStateMovesOnlyAsTheStateMachineSays : Obligations.WaitStateMovesOnlyAsTheStateMachineSays := by
  refine ⟨fun s t h => ⟨fun hrunning => ?_, fun hawaiting => ?_⟩, fun s => ⟨rfl, fun index down => setKey_wait index down s,
    rfl, rfl, rfl, fun image => awaitingKey_eq_false.2 (loadRomState_wait image s)⟩⟩
  · have hwait : s.wait = none := awaitingKey_eq_false.1 hrunning
    rw [stepCycle_of_no_wait hwait] at h
    exact awaitingKey_exec (s := s.advancePc) hwait h
  · obtain ⟨r, hwait⟩ := Option.isSome_iff_exists.1 hawaiting
    rw [stepCycle_of_wait hwait] at h
    cases h
    exact awaitingKey_waitPoll hwait

end Sys2Proof.Machine
